-- ==== Sys2Proof/Word.lean ====
section
/-! DEFINITION. The machine's word types (00_scope.md R6, R10): every value is an unsigned integer of a fixed width. -/

namespace Sys2Proof

/-- `u8`: a register, a timer, a byte of memory (R6). -/
abbrev Byte := BitVec 8

/-- `u16`: an instruction word, `pc`, `I`, a stack entry (R6). -/
abbrev Word := BitVec 16

/-- The index of a general register: a 4-bit field names all sixteen (10_state.md R22). -/
abbrev RegIdx := Fin 16

/-- A 12-bit address field `NNN` (30_encoding.md R82). -/
abbrev Addr12 := BitVec 12

/-- The flag register, register 15 (10_state.md R23). -/
def flagReg : RegIdx := 15

/-- The display grid, a vector of 32 rows of 64 pixels: `disp[x][y]` of the spec is entry `x` of row `y` (10_state.md R36, R37). -/
abbrev Display := Vector (Vector Bool 64) 32

/-- Every pixel off. -/
def Display.blank : Display := Vector.replicate 32 (Vector.replicate 64 false)

end Sys2Proof
end

