-- ==== Sys2Proof/Config.lean ====
section
/-! DEFINITION. The fixed parameters (00_scope.md R6) and the five configuration parameters (R7) of the CORE. -/

namespace Sys2Proof

/-- `MEMSIZE`: the memory holds the addresses 0x000 to 0xFFF (R6). -/
def memSize : Nat := 0x1000

/-- `FONT_BASE` (R6). -/
def fontBase : Nat := 0x050

/-- The font table holds 16 glyphs of 5 bytes (R6). -/
def fontSize : Nat := 80

/-- `PROG_BASE`: where a program image is loaded and starts (R6). -/
def progBase : Nat := 0x200

/-- The longest program image (R6). -/
def maxImage : Nat := 3584

/-- `STACK_DEPTH` (R6). -/
def stackDepth : Nat := 32

/-- `SUBOP_DECODE`: whether the constant digits of 00E0, 00EE, 5XY0 and 9XY0 must match (R7, 30_encoding.md R88). -/
inductive SubopDecode where
  /-- Every constant digit of the pattern must match (the default). -/
  | strict
  /-- Group 0x0 is told apart by `NN` alone, and groups 0x5 and 0x9 ignore `N`. -/
  | loose
  deriving DecidableEq, Repr

/-- The model's arguments (R7): fixed for a whole run (10_state.md R21). -/
structure Config where
  /-- `PRNG_SEED`: the Random Source's state at creation; the spec leaves it OPEN (D27). -/
  prngSeed : BitVec 32
  /-- `DISPLAY_INIT`: the pixels at creation; the spec leaves them OPEN (D28). -/
  displayInit : Display
  /-- `FONT`: the bytes of the font table (10_state.md R40). -/
  font : Vector Byte 80
  /-- `SUBOP_DECODE` (30_encoding.md R88). -/
  subopDecode : SubopDecode
  /-- `FONT_WRITABLE`: whether stores into the font region are allowed (20_memory.md R69). -/
  fontWritable : Bool
  deriving DecidableEq, Repr

/-- The default `FONT`, glyphs 0 to F, one glyph a line (10_state.md R41). -/
def Config.standardFont : Vector Byte 80 := #v[
  0xF0, 0x90, 0x90, 0x90, 0xF0,
  0x20, 0x60, 0x20, 0x20, 0x70,
  0xF0, 0x10, 0xF0, 0x80, 0xF0,
  0xF0, 0x10, 0xF0, 0x10, 0xF0,
  0x90, 0x90, 0xF0, 0x10, 0x10,
  0xF0, 0x80, 0xF0, 0x10, 0xF0,
  0xF0, 0x80, 0xF0, 0x90, 0xF0,
  0xF0, 0x10, 0x20, 0x40, 0x40,
  0xF0, 0x90, 0xF0, 0x90, 0xF0,
  0xF0, 0x90, 0xF0, 0x10, 0xF0,
  0xF0, 0x90, 0xF0, 0x90, 0x90,
  0xE0, 0x90, 0xE0, 0x90, 0xE0,
  0xF0, 0x80, 0x80, 0x80, 0xF0,
  0xE0, 0x90, 0x90, 0x90, 0xE0,
  0xF0, 0x80, 0xF0, 0x80, 0xF0,
  0xF0, 0x80, 0xF0, 0x80, 0x80]

/-- The default configuration (R7). DESIGN CHOICE, unsafe: the two OPEN parameters have the values of log entries 3 and 4:
the seed the source's own tests use (70_reset_and_hazards.md R242), and a display with every pixel off. -/
def Config.default : Config where
  prngSeed := 4
  displayInit := Display.blank
  font := Config.standardFont
  subopDecode := .strict
  fontWritable := false

end Sys2Proof
end

