-- ==== Sys2Proof/Syntax.lean ====
section
/-! DEFINITION. The 34 instructions, one constructor per row of spec/opcode_table.json, in the table's order (30_encoding.md R86). -/

namespace Sys2Proof

/-- An instruction. `x` and `y` are the register fields X and Y, `nn` the immediate byte NN, `nnn` the address NNN, and
`n` the row count N (30_encoding.md R82, R84). -/
inductive Instr where
  /-- 00E0 `CLS` (43_display.md R170). -/
  | cls
  /-- 00EE `RET` (40_flow.md R101). -/
  | ret
  /-- 1NNN `JP addr` (R102). -/
  | jp (nnn : Addr12)
  /-- 2NNN `CALL addr` (R103). -/
  | call (nnn : Addr12)
  /-- 3XNN `SE Vx, byte` (R104). -/
  | seImm (x : RegIdx) (nn : Byte)
  /-- 4XNN `SNE Vx, byte` (R105). -/
  | sneImm (x : RegIdx) (nn : Byte)
  /-- 5XY0 `SE Vx, Vy` (R106). -/
  | seReg (x y : RegIdx)
  /-- 9XY0 `SNE Vx, Vy` (R107). -/
  | sneReg (x y : RegIdx)
  /-- 6XNN `LD Vx, byte` (41_alu.md R120). -/
  | ldImm (x : RegIdx) (nn : Byte)
  /-- 7XNN `ADD Vx, byte` (R121). -/
  | addImm (x : RegIdx) (nn : Byte)
  /-- 8XY0 `LD Vx, Vy` (R122). -/
  | ldReg (x y : RegIdx)
  /-- 8XY1 `OR Vx, Vy` (R123). -/
  | orReg (x y : RegIdx)
  /-- 8XY2 `AND Vx, Vy` (R124). -/
  | andReg (x y : RegIdx)
  /-- 8XY3 `XOR Vx, Vy` (R125). -/
  | xorReg (x y : RegIdx)
  /-- 8XY4 `ADD Vx, Vy` (R126). -/
  | addReg (x y : RegIdx)
  /-- 8XY5 `SUB Vx, Vy` (R127). -/
  | subReg (x y : RegIdx)
  /-- 8XY7 `SUBN Vx, Vy` (R128). -/
  | subnReg (x y : RegIdx)
  /-- 8XY6 `SHR Vx, Vy` (R129). -/
  | shrReg (x y : RegIdx)
  /-- 8XYE `SHL Vx, Vy` (R130). -/
  | shlReg (x y : RegIdx)
  /-- ANNN `LD I, addr` (42_index_memory.md R150). -/
  | ldI (nnn : Addr12)
  /-- BNNN `JP V0, addr` (40_flow.md R108). -/
  | jpV0 (nnn : Addr12)
  /-- CXNN `RND Vx, byte` (41_alu.md R131). -/
  | rnd (x : RegIdx) (nn : Byte)
  /-- DXYN `DRW Vx, Vy, nibble` (43_display.md R171); well formed when `n` is at most 15. -/
  | drw (x y : RegIdx) (n : Nat)
  /-- EX9E `SKP Vx` (44_input_timers.md R180). -/
  | skp (x : RegIdx)
  /-- EXA1 `SKNP Vx` (R181). -/
  | sknp (x : RegIdx)
  /-- FX07 `LD Vx, DT` (R183). -/
  | ldVxDt (x : RegIdx)
  /-- FX15 `LD DT, Vx` (R184). -/
  | ldDtVx (x : RegIdx)
  /-- FX18 `LD ST, Vx` (R185). -/
  | ldStVx (x : RegIdx)
  /-- FX1E `ADD I, Vx` (42_index_memory.md R151). -/
  | addI (x : RegIdx)
  /-- FX0A `LD Vx, K` (44_input_timers.md R182). -/
  | ldVxK (x : RegIdx)
  /-- FX29 `LD F, Vx` (42_index_memory.md R152). -/
  | ldF (x : RegIdx)
  /-- FX33 `LD B, Vx` (R153). -/
  | ldB (x : RegIdx)
  /-- FX55 `LD [I], Vx` (R154). -/
  | ldMemVx (x : RegIdx)
  /-- FX65 `LD Vx, [I]` (R155). -/
  | ldVxMem (x : RegIdx)
  deriving DecidableEq, Repr

end Sys2Proof
end

