-- ==== Sys2Proof/Decode.lean ====
section
/-! DEFINITION. Fields, decoding and encoding of the 16-bit instruction word (30_encoding.md R80 to R91). -/

namespace Sys2Proof

/-- `W = (byte0 << 8) | byte1`: the byte at the lower address is the more significant one (20_memory.md R65, R81). -/
def instrWord (byte0 byte1 : Byte) : Word := byte0 ++ byte1

/-- G, the opcode group, W[15:12] (R82). -/
def fieldG (w : Word) : BitVec 4 := w.extractLsb' 12 4

/-- X, a register index, W[11:8] (R82). -/
def fieldX (w : Word) : RegIdx := (w.extractLsb' 8 4).toFin

/-- Y, a register index, W[7:4] (R82). -/
def fieldY (w : Word) : RegIdx := (w.extractLsb' 4 4).toFin

/-- N, the low nibble, W[3:0], as a count (R82, R85). -/
def fieldN (w : Word) : Nat := (w.extractLsb' 0 4).toNat

/-- NN, the immediate byte, W[7:0] (R82). -/
def fieldNN (w : Word) : Byte := w.extractLsb' 0 8

/-- NNN, the address, W[11:0] (R82). -/
def fieldNNN (w : Word) : Addr12 := w.extractLsb' 0 12

/-- Why no instruction was decoded: the names a refusal of the decoder has. -/
inductive DecodeError where
  /-- The word encodes no instruction (R89). -/
  | unknownOpcode (w : Word)
  deriving DecidableEq, Repr

/-- Group 0x0: under strict decode the whole word is matched, under loose decode `NN` alone (R87, R88). -/
def decodeGroup0 (mode : SubopDecode) (w : Word) : Except DecodeError Instr :=
  if mode = .loose ∨ fieldX w = 0 then
    match (fieldNN w).toNat with
    | 0xE0 => .ok .cls
    | 0xEE => .ok .ret
    | _ => .error (.unknownOpcode w)
  else .error (.unknownOpcode w)

/-- Group 0x8, told apart by the low nibble (R87). -/
def decodeGroup8 (w : Word) : Except DecodeError Instr :=
  match fieldN w with
  | 0x0 => .ok (.ldReg (fieldX w) (fieldY w))
  | 0x1 => .ok (.orReg (fieldX w) (fieldY w))
  | 0x2 => .ok (.andReg (fieldX w) (fieldY w))
  | 0x3 => .ok (.xorReg (fieldX w) (fieldY w))
  | 0x4 => .ok (.addReg (fieldX w) (fieldY w))
  | 0x5 => .ok (.subReg (fieldX w) (fieldY w))
  | 0x6 => .ok (.shrReg (fieldX w) (fieldY w))
  | 0x7 => .ok (.subnReg (fieldX w) (fieldY w))
  | 0xE => .ok (.shlReg (fieldX w) (fieldY w))
  | _ => .error (.unknownOpcode w)

/-- Group 0xE, told apart by the low byte (R87). -/
def decodeGroupE (w : Word) : Except DecodeError Instr :=
  match (fieldNN w).toNat with
  | 0x9E => .ok (.skp (fieldX w))
  | 0xA1 => .ok (.sknp (fieldX w))
  | _ => .error (.unknownOpcode w)

/-- Group 0xF, told apart by the low byte (R87). -/
def decodeGroupF (w : Word) : Except DecodeError Instr :=
  match (fieldNN w).toNat with
  | 0x07 => .ok (.ldVxDt (fieldX w))
  | 0x0A => .ok (.ldVxK (fieldX w))
  | 0x15 => .ok (.ldDtVx (fieldX w))
  | 0x18 => .ok (.ldStVx (fieldX w))
  | 0x1E => .ok (.addI (fieldX w))
  | 0x29 => .ok (.ldF (fieldX w))
  | 0x33 => .ok (.ldB (fieldX w))
  | 0x55 => .ok (.ldMemVx (fieldX w))
  | 0x65 => .ok (.ldVxMem (fieldX w))
  | _ => .error (.unknownOpcode w)

/-- `Decode(W)`: dispatch on the group, then on the sub-opcode (R87); groups 0x5 and 0x9 check `N = 0` under strict
decode only (R88). -/
def decode (mode : SubopDecode) (w : Word) : Except DecodeError Instr :=
  match (fieldG w).toNat with
  | 0x0 => decodeGroup0 mode w
  | 0x1 => .ok (.jp (fieldNNN w))
  | 0x2 => .ok (.call (fieldNNN w))
  | 0x3 => .ok (.seImm (fieldX w) (fieldNN w))
  | 0x4 => .ok (.sneImm (fieldX w) (fieldNN w))
  | 0x5 => if mode = .loose ∨ fieldN w = 0 then .ok (.seReg (fieldX w) (fieldY w)) else .error (.unknownOpcode w)
  | 0x6 => .ok (.ldImm (fieldX w) (fieldNN w))
  | 0x7 => .ok (.addImm (fieldX w) (fieldNN w))
  | 0x8 => decodeGroup8 w
  | 0x9 => if mode = .loose ∨ fieldN w = 0 then .ok (.sneReg (fieldX w) (fieldY w)) else .error (.unknownOpcode w)
  | 0xA => .ok (.ldI (fieldNNN w))
  | 0xB => .ok (.jpV0 (fieldNNN w))
  | 0xC => .ok (.rnd (fieldX w) (fieldNN w))
  | 0xD => .ok (.drw (fieldX w) (fieldY w) (fieldN w))
  | 0xE => decodeGroupE w
  | 0xF => decodeGroupF w
  | _ => .error (.unknownOpcode w)

/-- Decoding the two bytes of an instruction, total on any two bytes (R83). -/
def decodeBytes (mode : SubopDecode) (byte0 byte1 : Byte) : Except DecodeError Instr :=
  decode mode (instrWord byte0 byte1)

/-- A row of the opcode map R86: a word `w` encodes the row's instruction when `w &&& mask = pattern`. -/
structure OpcodeRow where
  pattern : Word
  mask : Word
  /-- The mask under loose decode; it differs from `mask` for 00E0, 00EE, 5XY0 and 9XY0 only (R88, C14). -/
  maskLoose : Word
  deriving DecidableEq, Repr

/-- The row's mask under each setting of `SUBOP_DECODE` (R88). -/
def OpcodeRow.maskOf (r : OpcodeRow) : SubopDecode → Word
  | .strict => r.mask
  | .loose => r.maskLoose

/-- A row whose mask does not depend on `SUBOP_DECODE`. -/
def OpcodeRow.both (pattern mask : Word) : OpcodeRow := ⟨pattern, mask, mask⟩

/-- The instruction's row of the opcode map (R86): the digits of its words that are fixed. -/
def Instr.row : Instr → OpcodeRow
  | .cls => ⟨0x00E0, 0xFFFF, 0xF0FF⟩
  | .ret => ⟨0x00EE, 0xFFFF, 0xF0FF⟩
  | .jp _ => .both 0x1000 0xF000
  | .call _ => .both 0x2000 0xF000
  | .seImm _ _ => .both 0x3000 0xF000
  | .sneImm _ _ => .both 0x4000 0xF000
  | .seReg _ _ => ⟨0x5000, 0xF00F, 0xF000⟩
  | .sneReg _ _ => ⟨0x9000, 0xF00F, 0xF000⟩
  | .ldImm _ _ => .both 0x6000 0xF000
  | .addImm _ _ => .both 0x7000 0xF000
  | .ldReg _ _ => .both 0x8000 0xF00F
  | .orReg _ _ => .both 0x8001 0xF00F
  | .andReg _ _ => .both 0x8002 0xF00F
  | .xorReg _ _ => .both 0x8003 0xF00F
  | .addReg _ _ => .both 0x8004 0xF00F
  | .subReg _ _ => .both 0x8005 0xF00F
  | .subnReg _ _ => .both 0x8007 0xF00F
  | .shrReg _ _ => .both 0x8006 0xF00F
  | .shlReg _ _ => .both 0x800E 0xF00F
  | .ldI _ => .both 0xA000 0xF000
  | .jpV0 _ => .both 0xB000 0xF000
  | .rnd _ _ => .both 0xC000 0xF000
  | .drw _ _ _ => .both 0xD000 0xF000
  | .skp _ => .both 0xE09E 0xF0FF
  | .sknp _ => .both 0xE0A1 0xF0FF
  | .ldVxDt _ => .both 0xF007 0xF0FF
  | .ldDtVx _ => .both 0xF015 0xF0FF
  | .ldStVx _ => .both 0xF018 0xF0FF
  | .addI _ => .both 0xF01E 0xF0FF
  | .ldVxK _ => .both 0xF00A 0xF0FF
  | .ldF _ => .both 0xF029 0xF0FF
  | .ldB _ => .both 0xF033 0xF0FF
  | .ldMemVx _ => .both 0xF055 0xF0FF
  | .ldVxMem _ => .both 0xF065 0xF0FF

/-- The same instruction with every operand read from the word `w` (R82, R84). -/
def Instr.withFields (w : Word) : Instr → Instr
  | .cls => .cls
  | .ret => .ret
  | .jp _ => .jp (fieldNNN w)
  | .call _ => .call (fieldNNN w)
  | .seImm _ _ => .seImm (fieldX w) (fieldNN w)
  | .sneImm _ _ => .sneImm (fieldX w) (fieldNN w)
  | .seReg _ _ => .seReg (fieldX w) (fieldY w)
  | .sneReg _ _ => .sneReg (fieldX w) (fieldY w)
  | .ldImm _ _ => .ldImm (fieldX w) (fieldNN w)
  | .addImm _ _ => .addImm (fieldX w) (fieldNN w)
  | .ldReg _ _ => .ldReg (fieldX w) (fieldY w)
  | .orReg _ _ => .orReg (fieldX w) (fieldY w)
  | .andReg _ _ => .andReg (fieldX w) (fieldY w)
  | .xorReg _ _ => .xorReg (fieldX w) (fieldY w)
  | .addReg _ _ => .addReg (fieldX w) (fieldY w)
  | .subReg _ _ => .subReg (fieldX w) (fieldY w)
  | .subnReg _ _ => .subnReg (fieldX w) (fieldY w)
  | .shrReg _ _ => .shrReg (fieldX w) (fieldY w)
  | .shlReg _ _ => .shlReg (fieldX w) (fieldY w)
  | .ldI _ => .ldI (fieldNNN w)
  | .jpV0 _ => .jpV0 (fieldNNN w)
  | .rnd _ _ => .rnd (fieldX w) (fieldNN w)
  | .drw _ _ _ => .drw (fieldX w) (fieldY w) (fieldN w)
  | .skp _ => .skp (fieldX w)
  | .sknp _ => .sknp (fieldX w)
  | .ldVxDt _ => .ldVxDt (fieldX w)
  | .ldDtVx _ => .ldDtVx (fieldX w)
  | .ldStVx _ => .ldStVx (fieldX w)
  | .addI _ => .addI (fieldX w)
  | .ldVxK _ => .ldVxK (fieldX w)
  | .ldF _ => .ldF (fieldX w)
  | .ldB _ => .ldB (fieldX w)
  | .ldMemVx _ => .ldMemVx (fieldX w)
  | .ldVxMem _ => .ldVxMem (fieldX w)

/-- A register index as the 4-bit field that holds it. -/
def regField (x : RegIdx) : BitVec 4 := BitVec.ofFin x

/-- Format `A`: group and address (R84). -/
def wordA (g : BitVec 4) (nnn : Addr12) : Word := g ++ nnn

/-- Formats `XB` and `X`: group, register and byte (R84). -/
def wordXB (g : BitVec 4) (x : RegIdx) (nn : Byte) : Word := g ++ regField x ++ nn

/-- Formats `XY` and `XYN`: group, two registers and the low nibble (R84). -/
def wordXYN (g : BitVec 4) (x y : RegIdx) (n : BitVec 4) : Word := g ++ regField x ++ regField y ++ n

/-- The word of a well-formed instruction, from the layouts of R84 and the map of R86. -/
def encode : Instr → Word
  | .cls => wordXB 0x0 0 0xE0
  | .ret => wordXB 0x0 0 0xEE
  | .jp nnn => wordA 0x1 nnn
  | .call nnn => wordA 0x2 nnn
  | .seImm x nn => wordXB 0x3 x nn
  | .sneImm x nn => wordXB 0x4 x nn
  | .seReg x y => wordXYN 0x5 x y 0x0
  | .sneReg x y => wordXYN 0x9 x y 0x0
  | .ldImm x nn => wordXB 0x6 x nn
  | .addImm x nn => wordXB 0x7 x nn
  | .ldReg x y => wordXYN 0x8 x y 0x0
  | .orReg x y => wordXYN 0x8 x y 0x1
  | .andReg x y => wordXYN 0x8 x y 0x2
  | .xorReg x y => wordXYN 0x8 x y 0x3
  | .addReg x y => wordXYN 0x8 x y 0x4
  | .subReg x y => wordXYN 0x8 x y 0x5
  | .subnReg x y => wordXYN 0x8 x y 0x7
  | .shrReg x y => wordXYN 0x8 x y 0x6
  | .shlReg x y => wordXYN 0x8 x y 0xE
  | .ldI nnn => wordA 0xA nnn
  | .jpV0 nnn => wordA 0xB nnn
  | .rnd x nn => wordXB 0xC x nn
  | .drw x y n => wordXYN 0xD x y (BitVec.ofNat 4 n)
  | .skp x => wordXB 0xE x 0x9E
  | .sknp x => wordXB 0xE x 0xA1
  | .ldVxDt x => wordXB 0xF x 0x07
  | .ldDtVx x => wordXB 0xF x 0x15
  | .ldStVx x => wordXB 0xF x 0x18
  | .addI x => wordXB 0xF x 0x1E
  | .ldVxK x => wordXB 0xF x 0x0A
  | .ldF x => wordXB 0xF x 0x29
  | .ldB x => wordXB 0xF x 0x33
  | .ldMemVx x => wordXB 0xF x 0x55
  | .ldVxMem x => wordXB 0xF x 0x65

/-- The byte at the lower address of a word's two bytes in memory, its more significant half (20_memory.md R65). -/
def wordByte0 (w : Word) : Byte := w.extractLsb' 8 8

/-- The byte at the higher address of a word's two bytes in memory. -/
def wordByte1 (w : Word) : Byte := w.extractLsb' 0 8

/-- The instruction the decoder reads from the low `nbits` bits of `w`, numbered as spec/opcode_table.json numbers them
(one 16-bit word, most significant byte first in memory), under the default `SUBOP_DECODE`. -/
def decodeTableWord (nbits w : Nat) : Option Instr :=
  let word : Word := BitVec.ofNat 16 (w % 2 ^ nbits)
  (decodeBytes Config.default.subopDecode (wordByte0 word) (wordByte1 word)).toOption

end Sys2Proof
end

