-- ==== Sys2Proof/Machine/State.lean ====
section
/-! DEFINITION. The machine's state (10_state.md R20), the reasons it can stop, and the state at creation (70_reset_and_hazards.md R240). -/

namespace Sys2Proof.Machine

/-- Memory: (address, byte) pairs in one canonical form (`Memory.wf`, Machine/Ops.lean). An address that is not listed
holds its creation value (10_state.md R20, 20_memory.md R68). -/
abbrev Memory := List Host.Cell

/-- The errors a Step can raise, each with the detail its record carries (60_exceptions.md R200). -/
inductive ErrorKind where
  /-- Code 1: Decode finds no instruction (R203). -/
  | unknownOpcode
  /-- Code 2: a push with sp = 32 (R204). -/
  | stackOverflow
  /-- Code 3: a pop with sp = 0 (R205). -/
  | stackUnderflow
  /-- Code 4: an address of 0x1000 or more; `addr` is the lowest such address (R206). -/
  | memoryOutOfBounds (addr : Nat)
  /-- Code 5: a key index above 15; `key` is x[X] (R207). -/
  | keyIndexOutOfRange (key : Byte)
  /-- Code 6: a store into the protected font region; `addr` is the lowest such address (R208). -/
  | immutableWrite (addr : Nat)
  deriving DecidableEq, Repr

/-- The record a Step that raises an error returns to the host (60_exceptions.md R202). -/
structure ErrorRecord where
  /-- The error, with its code and its detail (R200). -/
  kind : ErrorKind
  /-- The address the instruction was fetched from. -/
  ipc : Word
  /-- The instruction word W; absent for a fetch error (R200). -/
  word : Option Word
  deriving DecidableEq, Repr

/-- A call of the audio collaborator's gate (60_exceptions.md R223). -/
inductive AudioCall where
  | enable
  | disable
  deriving DecidableEq, Repr

/-- What the host does at the CORE's boundary (10_state.md R35). -/
inductive Transaction where
  /-- Execute one instruction. -/
  | step
  /-- Decrement both timers (60_exceptions.md R220). -/
  | tick
  /-- Copy a program image to 0x200 and set pc (70_reset_and_hazards.md R244). -/
  | load (image : List Byte)
  /-- A load whose image cannot be read (R245, RomReadFailure). -/
  | loadUnreadable
  /-- Set the Random Source's state (10_state.md R34). -/
  | seed (value : BitVec 32)
  /-- Change the pressed state of the keys; bit k is key k (R38). -/
  | keys (pressed : BitVec 16)
  deriving DecidableEq, Repr

/-- The state. The first eleven fields are the spec's list (10_state.md R20); `config` and `keys` are the spec's
configuration and input (R21, R38); the last three are the model's own (log entries 1, 5 and 6). -/
structure State where
  /-- `x[0]` … `x[15]`, the general registers; register 15 is the flag (R22, R23). -/
  x : Vector Byte 16
  /-- The program counter (R25). -/
  pc : Word
  /-- `I`, the index register (R27). -/
  i : Word
  /-- The stack pointer, 0 to 32: the number of live entries (R28). -/
  sp : Fin 33
  /-- The call stack (R28). -/
  stack : Vector Word 32
  /-- `DT`, the delay timer (R30). -/
  dt : Byte
  /-- `ST`, the sound timer (R30). -/
  st : Byte
  /-- The Random Source's state (R34). -/
  prng : BitVec 32
  /-- The memory (20_memory.md R60). -/
  mem : Memory
  /-- The display collaborator's grid, held here as R36 allows. -/
  disp : Display
  /-- Every error record so far, oldest first (60_exceptions.md R202). -/
  faults : List ErrorRecord
  /-- The configuration parameters, fixed for a whole run (R7, R21). -/
  config : Config
  /-- The key inputs, bit k the pressed state of key k: what a Step samples (R38). -/
  keys : BitVec 16
  /-- Whether a Step has been issued: a Load or Seed is allowed only before (70_reset_and_hazards.md R248). -/
  stepped : Bool
  /-- The calls made to the audio collaborator so far, oldest first (60_exceptions.md R223). -/
  audio : List AudioCall
  /-- The transactions the host issues next, in order; when none is left the host issues Steps. -/
  host : List Transaction
  deriving DecidableEq, Repr

/-- Why the machine stops for good. -/
inductive Fault where
  /-- Raised by the transaction `loadUnreadable`: "fatal at startup … process does not proceed"
  (70_reset_and_hazards.md R245). Safe: the CORE is never stepped after it. -/
  | romReadFailure
  deriving DecidableEq, Repr

/-- What the machine does not do. No instruction answers one of these: they refuse what the host must not do. -/
inductive Refusal where
  /-- Raised by an arm of `exec` whose instruction has no meaning yet (no arm is left). Safe. -/
  | notModelled (mnemonic : String)
  /-- Raised by the transaction `load` with an image of more than 3584 bytes; nothing is written
  (70_reset_and_hazards.md R245). Safe. -/
  | romTooLarge (length : Nat)
  /-- Raised by the transactions `load` and `loadUnreadable` after the first Step (R247, R248). Safe. -/
  | loadAfterFirstStep
  /-- Raised by the transaction `seed` after the first Step (R248, log entry 5). Safe. -/
  | seedAfterFirstStep
  deriving DecidableEq, Repr

/-- Creation with the configuration `c`, the CORE's only reset (70_reset_and_hazards.md R240, R241). The last four fields
are log entries 1, 5 and 6: no key pressed, no Step issued, no audio call made, no transaction pending. -/
def State.create (c : Config) : State where
  x := Vector.replicate 16 0
  pc := 0x0000
  i := 0x0000
  sp := 0
  stack := Vector.replicate 32 0
  dt := 0
  st := 0
  prng := c.prngSeed
  mem := []
  disp := c.displayInit
  faults := []
  config := c
  keys := 0
  stepped := false
  audio := []
  host := []

/-- The machine right after creation with the default configuration (00_scope.md R7). -/
def State.reset : State := State.create Config.default

end Sys2Proof.Machine
end

