-- ==== Sys2Proof/Machine/Ops.lean ====
section
/-! DEFINITION. The named operations over memory, registers, the call stack, the display, the Random Source and the
timers, and raising an error (10_state.md, 20_memory.md, 60_exceptions.md). -/

namespace Sys2Proof.Machine

open Host (Outcome)

/-! ### Memory -/

/-- Whether an address lies in the font region [0x050, 0x0A0) (20_memory.md R68). -/
def inFont (a : Nat) : Bool := fontBase ≤ a && a < fontBase + fontSize

/-- Whether an address lies outside the memory (20_memory.md R63). -/
def outOfSpace (a : Nat) : Bool := memSize ≤ a

/-- The byte an address holds at creation: `FONT` in the font region and 0 elsewhere (10_state.md R20). -/
def creationByte (c : Config) (a : Nat) : Byte :=
  if inFont a then c.font.getD (a - fontBase) 0 else 0

/-- `MemRead(a, 1)` on the memory alone (20_memory.md R62). -/
def Memory.read (c : Config) (m : Memory) (a : Nat) : Byte :=
  match m with
  | [] => creationByte c a
  | (b, v) :: rest => if b = a then v else Memory.read c rest a

/-- List the byte `v` at `a`, in address order. -/
def Memory.insert (m : Memory) (a : Nat) (v : Byte) : Memory :=
  match m with
  | [] => [(a, v)]
  | (b, w) :: rest =>
    if a < b then (a, v) :: (b, w) :: rest
    else if a = b then (a, v) :: rest
    else (b, w) :: Memory.insert rest a v

/-- List nothing at `a`. -/
def Memory.erase (m : Memory) (a : Nat) : Memory :=
  match m with
  | [] => []
  | (b, w) :: rest => if b = a then Memory.erase rest a else (b, w) :: Memory.erase rest a

/-- `MemWrite(a, 1, v)` on the memory alone (20_memory.md R62): an entry equal to the creation value is not listed. -/
def Memory.write (c : Config) (m : Memory) (a : Nat) (v : Byte) : Memory :=
  if v = creationByte c a then m.erase a else m.insert a v

/-- Stores at `a`, `a + 1`, … in ascending order. -/
def Memory.writeList (c : Config) (m : Memory) (a : Nat) : List Byte → Memory
  | [] => m
  | v :: vs => Memory.writeList c (Memory.write c m a v) (a + 1) vs

/-- The canonical form: addresses strictly rising from `lo` and below 0x1000, no entry equal to its creation value. -/
def Memory.wfFrom (c : Config) (lo : Nat) : Memory → Bool
  | [] => true
  | (a, v) :: rest => lo ≤ a && a < memSize && v != creationByte c a && Memory.wfFrom c (a + 1) rest

/-- The canonical form of the memory. -/
def Memory.wf (c : Config) (m : Memory) : Bool := Memory.wfFrom c 0 m

/-- `MemRead(a, 1)`, called with `a < 0x1000` only (20_memory.md R62). -/
def State.readByte (s : State) (a : Nat) : Byte := Memory.read s.config s.mem a

/-- The stores of an instruction: the bytes `vs` at `a`, `a + 1`, … in ascending order. -/
def State.storeBytes (s : State) (a : Nat) (vs : List Byte) : State :=
  { s with mem := Memory.writeList s.config s.mem a vs }

/-- The word at an address: the byte at the lower address is the more significant (20_memory.md R65). -/
def State.readWord (s : State) (a : Nat) : Word := instrWord (s.readByte a) (s.readByte (a + 1))

/-! ### Checks of data addresses -/

/-- The lowest of the addresses `a`, …, `a + n - 1` that `p` holds of. -/
def lowestWhere (p : Nat → Bool) (a n : Nat) : Option Nat := (List.range' a n).find? p

/-- The bounds check of an access to the `n` bytes at I: `ea = I + k` on unbounded naturals (20_memory.md R63). -/
def State.checkBounds (s : State) (n : Nat) : Option ErrorKind :=
  (lowestWhere outOfSpace s.i.toNat n).map .memoryOutOfBounds

/-- The check of a store into the font region, made only when `FONT_WRITABLE` is false (20_memory.md R69). -/
def State.checkFont (s : State) (n : Nat) : Option ErrorKind :=
  if s.config.fontWritable then none else (lowestWhere inFont s.i.toNat n).map .immutableWrite

/-- The checks of a store to the `n` bytes at I, the bounds check first (20_memory.md R69, 60_exceptions.md R209). -/
def State.checkStore (s : State) (n : Nat) : Option ErrorKind :=
  match s.checkBounds n with
  | some e => some e
  | none => s.checkFont n

/-! ### Raising an error -/

/-- The numeric code of an error (60_exceptions.md R200). -/
def ErrorKind.code : ErrorKind → Nat
  | .unknownOpcode => 1
  | .stackOverflow => 2
  | .stackUnderflow => 3
  | .memoryOutOfBounds _ => 4
  | .keyIndexOutOfRange _ => 5
  | .immutableWrite _ => 6

/-- The detail an error's record carries besides `ipc` and `W` (60_exceptions.md R200). -/
def ErrorKind.detail : ErrorKind → Option Nat
  | .memoryOutOfBounds a => some a
  | .keyIndexOutOfRange k => some k.toNat
  | .immutableWrite a => some a
  | .unknownOpcode | .stackOverflow | .stackUnderflow => none

/-- `ipc` during the execute phase, when pc already holds `ipc + 2` (10_state.md R25). -/
def State.ipc (s : State) : Word := s.pc - 2

/-- `W` during the execute phase: the word at `ipc`, which no instruction has changed when it makes its checks
(60_exceptions.md R201). -/
def State.currentWord (s : State) : Word := s.readWord s.ipc.toNat

/-- `raise E(info)` after a successful fetch: nothing changes but the list of records (60_exceptions.md R201, R202); pc
keeps the fetch advance. Error entry saves nothing else and transfers no control (R210), and the host may resume with the
next Step (R211). -/
def State.raise (s : State) (e : ErrorKind) : State :=
  { s with faults := s.faults ++ [{ kind := e, ipc := s.ipc, word := some s.currentWord }] }

/-- A fetch error: pc is not advanced and the record holds no word (20_memory.md R64, 60_exceptions.md R200, R201). -/
def State.raiseFetch (s : State) (addr : Nat) : State :=
  { s with faults := s.faults ++ [{ kind := .memoryOutOfBounds addr, ipc := s.pc, word := none }] }

/-- An instruction's own check, then its effect: every check comes before the first write (60_exceptions.md R201). -/
def State.guarded (s : State) (check : Option ErrorKind) (t : State) : Outcome State Fault Refusal :=
  match check with
  | some e => .next (s.raise e)
  | none => .next t

/-! ### Registers, pc and the call stack -/

/-- `x[r]`. -/
def State.reg (s : State) (r : RegIdx) : Byte := s.x[r]

/-- `x[r] <- v`. -/
def State.setReg (s : State) (r : RegIdx) (v : Byte) : State := { s with x := s.x.set r v }

/-- `pc <- target` (40_flow.md R109: not masked, aligned or checked). -/
def State.setPc (s : State) (target : Word) : State := { s with pc := target }

/-- `I <- v`. -/
def State.setI (s : State) (v : Word) : State := { s with i := v }

/-- `Skip()`: past one more instruction, whatever it is (40_flow.md R100). -/
def State.skip (s : State) : State := s.setPc (s.pc + 2)

/-- A conditional skip. -/
def State.skipIf (s : State) (c : Bool) : State := if c then s.skip else s

/-- A push: `stack[sp] <- v`, then `sp <- sp + 1`; none when the stack is full (10_state.md R28, R29). -/
def State.push (s : State) (v : Word) : Option State :=
  if h : s.sp.val < 32 then
    some { s with stack := s.stack.set s.sp.val v, sp := ⟨s.sp.val + 1, by omega⟩ }
  else none

/-- A pop: `sp <- sp - 1`, then `stack[sp]`, which keeps its value; none when the stack is empty (10_state.md R28, R29). -/
def State.pop (s : State) : Option (Word × State) :=
  if h : 0 < s.sp.val then
    some (s.stack[s.sp.val - 1], { s with sp := ⟨s.sp.val - 1, by omega⟩ })
  else none

/-- `x[0]`, …, `x[n - 1]` with each `x[k] <- MemRead(I + k, 1)` in ascending order (42_index_memory.md R155). -/
def State.loadedRegs (s : State) : Nat → Vector Byte 16
  | 0 => s.x
  | k + 1 => (s.loadedRegs k).setIfInBounds k (s.readByte (s.i.toNat + k))

/-- `x[0]`, …, `x[n - 1]` in ascending order, the bytes FX55 stores (42_index_memory.md R154). -/
def State.firstRegs (s : State) (n : Nat) : List Byte := s.x.toList.take n

/-! ### The Random Source -/

/-- The three xorshift steps over the 32-bit state (41_alu.md R137). -/
def xorshift (p : BitVec 32) : BitVec 32 :=
  let a := p ^^^ (p <<< 13)
  let b := a ^^^ (a >>> 17)
  b ^^^ (b <<< 5)

/-- `Next()`: the new state's low byte, and the state that holds it (41_alu.md R137). -/
def State.nextRandom (s : State) : Byte × State :=
  ((xorshift s.prng).setWidth 8, { s with prng := xorshift s.prng })

/-! ### Timers and sound -/

/-- `sound_active = (ST != 0)` (60_exceptions.md R222). -/
def State.soundActive (s : State) : Bool := s.st != 0

/-- The call of the audio collaborator when the sound timer goes from `old` to `new` (60_exceptions.md R223). -/
def audioEdge (old new : Byte) : List AudioCall :=
  match old != 0, new != 0 with
  | false, true => [.enable]
  | true, false => [.disable]
  | _, _ => []

/-- `ST <- v`, with the audio call its edge makes (60_exceptions.md R222, R223). -/
def State.setSt (s : State) (v : Byte) : State :=
  { s with st := v, audio := s.audio ++ audioEdge s.st v }

/-- `DT <- v`. -/
def State.setDt (s : State) (v : Byte) : State := { s with dt := v }

/-- One less, saturating at zero (60_exceptions.md R220). -/
def countDown (t : Byte) : Byte := if t = 0 then 0 else t - 1

/-! ### The display -/

/-- `DispGet(x, y)` (10_state.md R36). -/
def dispGet (d : Display) (x : Fin 64) (y : Fin 32) : Bool := d[y][x]

/-- `DispSet(x, y, b)` (10_state.md R36). -/
def dispSet (d : Display) (x : Fin 64) (y : Fin 32) (b : Bool) : Display :=
  Vector.set d y (Vector.set d[y] x b)

/-- `DispClear()` (10_state.md R36). -/
def dispClear : Display := Display.blank

/-- A display and whether a collision has been found so far. -/
abbrev Canvas := Display × Bool

/-- One sprite bit at (x, y): a 0 bit and a clipped pixel change nothing; a 1 bit flips its pixel and collides when the
pixel was on (43_display.md R171, R172, R173). -/
def drawBit (cv : Canvas) (x y : Nat) (bit : Bool) : Canvas :=
  if h : bit = true ∧ x < 64 ∧ y < 32 then
    let old := dispGet cv.1 ⟨x, h.2.1⟩ ⟨y, h.2.2⟩
    (dispSet cv.1 ⟨x, h.2.1⟩ ⟨y, h.2.2⟩ (!old), cv.2 || old)
  else cv

/-- The first `n` columns of a sprite row, left to right: bit 7 is the leftmost column (43_display.md R175). -/
def drawCols (cv : Canvas) (x0 y : Nat) (row : Byte) : Nat → Canvas
  | 0 => cv
  | col + 1 => drawBit (drawCols cv x0 y row col) (x0 + col) y (row.getLsbD (7 - col))

/-- The rows of a sprite, top to bottom, eight columns each (43_display.md R171). -/
def drawRows (cv : Canvas) (x0 y : Nat) : List Byte → Canvas
  | [] => cv
  | row :: rest => drawRows (drawCols cv x0 y row 8) x0 (y + 1) rest

/-- The `n` sprite bytes at I (43_display.md R171). -/
def State.spriteBytes (s : State) (n : Nat) : List Byte := (List.range' s.i.toNat n).map s.readByte

/-! ### The keypad -/

/-- `Key(k)` in this Step's sample (10_state.md R38); called with `k < 16` only. -/
def State.key (s : State) (k : Nat) : Bool := s.keys.getLsbD k

/-- The first pressed key, "scan keys 0–15 in order" (44_input_timers.md R182). -/
def State.firstKey (s : State) : Option Nat := (List.range' 0 16).find? s.key

end Sys2Proof.Machine
end

