-- ==== Sys2Proof/Machine/Operands.lean ====
section
/-! DEFINITION. The operand forms: how fields and registers become operands (30_encoding.md R85, 42_index_memory.md R156). -/

namespace Sys2Proof.Machine

/-- NNN zero-extended to 16 bits (30_encoding.md R85). -/
def addrWord (nnn : Addr12) : Word := nnn.setWidth 16

/-- `zext_16(x[r])`. -/
def State.regWord (s : State) (r : RegIdx) : Word := (s.reg r).setWidth 16

/-- The number of registers and bytes of the block `0..=X` (30_encoding.md R85). -/
def blockLength (x : RegIdx) : Nat := x.val + 1

/-- The address of glyph `v`, not reduced to a digit (42_index_memory.md R152). -/
def glyphAddr (v : Byte) : Word := BitVec.ofNat 16 (fontBase + 5 * v.toNat)

/-- The hundreds, tens and ones digits of `v` (42_index_memory.md R153). -/
def decimalDigits (v : Byte) : List Byte :=
  [BitVec.ofNat 8 (v.toNat / 100), BitVec.ofNat 8 (v.toNat / 10 % 10), BitVec.ofNat 8 (v.toNat % 10)]

/-- `x[X] mod 64`, a sprite's first column (43_display.md R171). -/
def State.spriteX (s : State) (x : RegIdx) : Nat := (s.reg x).toNat % 64

/-- `x[Y] mod 32`, a sprite's first row (43_display.md R171). -/
def State.spriteY (s : State) (y : RegIdx) : Nat := (s.reg y).toNat % 32

/-- The check of a key index: above 15 there is no key (44_input_timers.md R187). -/
def checkKeyIndex (k : Byte) : Option ErrorKind :=
  if 15 < k.toNat then some (.keyIndexOutOfRange k) else none

end Sys2Proof.Machine
end

