-- ==== Sys2Proof/Machine/Flags.lean ====
section
/-! DEFINITION. The flag computations: what an instruction writes to `x[15]` besides its result (41_alu.md R135, R136). -/

namespace Sys2Proof.Machine

/-- A flag as the 0 or 1 written to `x[15]` (41_alu.md R135). -/
def flagByte (f : Bool) : Byte := if f then 1 else 0

/-- The exact sum of two registers, 0 to 510 (41_alu.md R126). -/
def wideSum (a b : Byte) : Word := a.setWidth 16 + b.setWidth 16

/-- The carry out of bit 7 of a sum (41_alu.md R126). -/
def carryOut (a b : Byte) : Bool := 255 < (wideSum a b).toNat

/-- No borrow in `a - b`: `a >= b`, unsigned (41_alu.md R127, R128). -/
def noBorrow (a b : Byte) : Bool := b.toNat ≤ a.toNat

/-- The bit a right shift loses (41_alu.md R129). -/
def lowBitOut (v : Byte) : Bool := v.getLsbD 0

/-- The bit a left shift loses (41_alu.md R130). -/
def highBitOut (v : Byte) : Bool := v.getLsbD 7

/-- The result to `x[X]` first and the flag to `x[15]` last (41_alu.md R136). -/
def State.setRegFlag (s : State) (x : RegIdx) (v : Byte) (f : Bool) : State :=
  (s.setReg x v).setReg flagReg (flagByte f)

end Sys2Proof.Machine
end

