-- ==== Sys2Proof/Machine/Alu.lean ====
section
/-! DEFINITION. Register loads, arithmetic, logic, shifts and random (41_alu.md). Results and flags are computed from the
register values at the start of the instruction (R136). -/

namespace Sys2Proof.Machine

open Host (Outcome)

/-- 6XNN, load immediate (R120). -/
def execLdImm (x : RegIdx) (nn : Byte) (s : State) : Outcome State Fault Refusal :=
  .next (s.setReg x nn)

/-- 7XNN, add immediate, no flag (R121). -/
def execAddImm (x : RegIdx) (nn : Byte) (s : State) : Outcome State Fault Refusal :=
  .next (s.setReg x (s.reg x + nn))

/-- 8XY0, copy register (R122). -/
def execLdReg (x y : RegIdx) (s : State) : Outcome State Fault Refusal :=
  .next (s.setReg x (s.reg y))

/-- 8XY1, bitwise OR, no flag (R123). -/
def execOrReg (x y : RegIdx) (s : State) : Outcome State Fault Refusal :=
  .next (s.setReg x (s.reg x ||| s.reg y))

/-- 8XY2, bitwise AND, no flag (R124). -/
def execAndReg (x y : RegIdx) (s : State) : Outcome State Fault Refusal :=
  .next (s.setReg x (s.reg x &&& s.reg y))

/-- 8XY3, bitwise XOR, no flag (R125). -/
def execXorReg (x y : RegIdx) (s : State) : Outcome State Fault Refusal :=
  .next (s.setReg x (s.reg x ^^^ s.reg y))

/-- 8XY4, add registers, carry to the flag (R126). -/
def execAddReg (x y : RegIdx) (s : State) : Outcome State Fault Refusal :=
  .next (s.setRegFlag x ((wideSum (s.reg x) (s.reg y)).setWidth 8) (carryOut (s.reg x) (s.reg y)))

/-- 8XY5, subtract Y from X, no-borrow to the flag (R127). -/
def execSubReg (x y : RegIdx) (s : State) : Outcome State Fault Refusal :=
  .next (s.setRegFlag x (s.reg x - s.reg y) (noBorrow (s.reg x) (s.reg y)))

/-- 8XY7, subtract X from Y, no-borrow to the flag (R128). -/
def execSubnReg (x y : RegIdx) (s : State) : Outcome State Fault Refusal :=
  .next (s.setRegFlag x (s.reg y - s.reg x) (noBorrow (s.reg y) (s.reg x)))

/-- 8XY6, shift right, from Y (R129). -/
def execShrReg (x y : RegIdx) (s : State) : Outcome State Fault Refusal :=
  .next (s.setRegFlag x (s.reg y >>> 1) (lowBitOut (s.reg y)))

/-- 8XYE, shift left, from Y (R130). -/
def execShlReg (x y : RegIdx) (s : State) : Outcome State Fault Refusal :=
  .next (s.setRegFlag x (s.reg y <<< 1) (highBitOut (s.reg y)))

/-- CXNN, random byte masked by an immediate; the generator advances whatever NN is (R131). -/
def execRnd (x : RegIdx) (nn : Byte) (s : State) : Outcome State Fault Refusal :=
  .next (s.nextRandom.2.setReg x (nn &&& s.nextRandom.1))

end Sys2Proof.Machine
end

