-- ==== Sys2Proof/Machine/Flow.lean ====
section
/-! DEFINITION. Control transfer and conditional skips (40_flow.md). On entry pc already holds `ipc + 2`. -/

namespace Sys2Proof.Machine

open Host (Outcome)

/-- 00EE, return from subroutine (R101). -/
def execRet (s : State) : Outcome State Fault Refusal :=
  match s.pop with
  | some (target, t) => .next (t.setPc target)
  | none => .next (s.raise .stackUnderflow)

/-- 1NNN, jump (R102). -/
def execJp (nnn : Addr12) (s : State) : Outcome State Fault Refusal :=
  .next (s.setPc (addrWord nnn))

/-- 2NNN, call subroutine: the return address is `ipc + 2` (R103). -/
def execCall (nnn : Addr12) (s : State) : Outcome State Fault Refusal :=
  match s.push s.pc with
  | some t => .next (t.setPc (addrWord nnn))
  | none => .next (s.raise .stackOverflow)

/-- 3XNN, skip if register equals immediate (R104). -/
def execSeImm (x : RegIdx) (nn : Byte) (s : State) : Outcome State Fault Refusal :=
  .next (s.skipIf (s.reg x == nn))

/-- 4XNN, skip if register differs from immediate (R105). -/
def execSneImm (x : RegIdx) (nn : Byte) (s : State) : Outcome State Fault Refusal :=
  .next (s.skipIf (s.reg x != nn))

/-- 5XY0, skip if registers are equal (R106). -/
def execSeReg (x y : RegIdx) (s : State) : Outcome State Fault Refusal :=
  .next (s.skipIf (s.reg x == s.reg y))

/-- 9XY0, skip if registers differ (R107). -/
def execSneReg (x y : RegIdx) (s : State) : Outcome State Fault Refusal :=
  .next (s.skipIf (s.reg x != s.reg y))

/-- BNNN, jump indexed by register 0, whatever X is (R108). -/
def execJpV0 (nnn : Addr12) (s : State) : Outcome State Fault Refusal :=
  .next (s.setPc (addrWord nnn + s.regWord 0))

end Sys2Proof.Machine
end

