-- ==== Sys2Proof/Machine/Index.lean ====
section
/-! DEFINITION. The index register and memory transfers (42_index_memory.md). No transfer changes I (R156). -/

namespace Sys2Proof.Machine

open Host (Outcome)

/-- ANNN, load index (R150). -/
def execLdI (nnn : Addr12) (s : State) : Outcome State Fault Refusal :=
  .next (s.setI (addrWord nnn))

/-- FX1E, add register to index, no flag (R151). -/
def execAddI (x : RegIdx) (s : State) : Outcome State Fault Refusal :=
  .next (s.setI (s.i + s.regWord x))

/-- FX29, point I at the font glyph for x[X] (R152). -/
def execLdF (x : RegIdx) (s : State) : Outcome State Fault Refusal :=
  .next (s.setI (glyphAddr (s.reg x)))

/-- FX33, store the decimal digits of x[X] (R153). -/
def execLdB (x : RegIdx) (s : State) : Outcome State Fault Refusal :=
  s.guarded (s.checkStore 3) (s.storeBytes s.i.toNat (decimalDigits (s.reg x)))

/-- FX55, store registers 0..=X (R154). -/
def execLdMemVx (x : RegIdx) (s : State) : Outcome State Fault Refusal :=
  s.guarded (s.checkStore (blockLength x)) (s.storeBytes s.i.toNat (s.firstRegs (blockLength x)))

/-- FX65, load registers 0..=X (R155). -/
def execLdVxMem (x : RegIdx) (s : State) : Outcome State Fault Refusal :=
  s.guarded (s.checkBounds (blockLength x)) { s with x := s.loadedRegs (blockLength x) }

end Sys2Proof.Machine
end

