-- ==== Sys2Proof/Machine/Input.lean ====
section
/-! DEFINITION. The keypad and timer instructions (44_input_timers.md). -/

namespace Sys2Proof.Machine

open Host (Outcome)

/-- EX9E, skip if the key in x[X] is pressed (R180). -/
def execSkp (x : RegIdx) (s : State) : Outcome State Fault Refusal :=
  s.guarded (checkKeyIndex (s.reg x)) (s.skipIf (s.key (s.reg x).toNat))

/-- EXA1, skip if the key in x[X] is not pressed (R181). -/
def execSknp (x : RegIdx) (s : State) : Outcome State Fault Refusal :=
  s.guarded (checkKeyIndex (s.reg x)) (s.skipIf (!s.key (s.reg x).toNat))

/-- FX0A, wait for a key press by polling: with no key pressed pc goes back to `ipc` (R182). -/
def execLdVxK (x : RegIdx) (s : State) : Outcome State Fault Refusal :=
  match s.firstKey with
  | some k => .next (s.setReg x (BitVec.ofNat 8 k))
  | none => .next (s.setPc (s.pc - 2))

/-- FX07, read the delay timer (R183). -/
def execLdVxDt (x : RegIdx) (s : State) : Outcome State Fault Refusal :=
  .next (s.setReg x s.dt)

/-- FX15, write the delay timer (R184). -/
def execLdDtVx (x : RegIdx) (s : State) : Outcome State Fault Refusal :=
  .next (s.setDt (s.reg x))

/-- FX18, write the sound timer (R185). -/
def execLdStVx (x : RegIdx) (s : State) : Outcome State Fault Refusal :=
  .next (s.setSt (s.reg x))

end Sys2Proof.Machine
end

