-- ==== Sys2Proof/Machine/Screen.lean ====
section
/-! DEFINITION. The display instructions (43_display.md). -/

namespace Sys2Proof.Machine

open Host (Outcome)

/-- 00E0, clear the display (R170). -/
def execCls (s : State) : Outcome State Fault Refusal :=
  .next { s with disp := dispClear }

/-- The display and the collision of an N-row sprite at (x[X] mod 64, x[Y] mod 32) (R171). -/
def State.drawn (s : State) (x y : RegIdx) (n : Nat) : Canvas :=
  drawRows (s.disp, false) (s.spriteX x) (s.spriteY y) (s.spriteBytes n)

/-- DXYN, draw an N-row sprite with XOR; the flag is written last, 1 on a collision and 0 otherwise (R171, R174). -/
def execDrw (x y : RegIdx) (n : Nat) (s : State) : Outcome State Fault Refusal :=
  s.guarded (s.checkBounds n)
    (State.setReg { s with disp := (s.drawn x y n).1 } flagReg (flagByte (s.drawn x y n).2))

end Sys2Proof.Machine
end

