-- ==== Sys2Proof/Machine/Engine.lean ====
section
/-! DEFINITION. One Step of the Execution Engine, fetch to execute (30_encoding.md R80), and the host's other
transactions (10_state.md R35). Everything Machine/Step.lean does is defined here. -/

namespace Sys2Proof.Machine

open Host (Outcome)

/-- The fetch check: the lowest of the two addresses read that is out of range, the first one when `ipc` itself is
(20_memory.md R64). -/
def State.checkFetch (s : State) : Option Nat := lowestWhere outOfSpace s.pc.toNat 2

/-- The Step has been issued (70_reset_and_hazards.md R248). -/
def State.markStepped (s : State) : State := { s with stepped := true }

/-- "advance PC by 2" (30_encoding.md R80). -/
def State.advance (s : State) : State := s.setPc (s.pc + 2)

/-- `Step()`: fetch at pc, advance pc by 2, decode, then execute in the advanced state; the first error that applies is the
Step's only one (30_encoding.md R80, 60_exceptions.md R209). -/
def engineStep (s : State) : Outcome State Fault Refusal :=
  match s.checkFetch with
  | some addr => .next (s.markStepped.raiseFetch addr)
  | none =>
    match decode s.config.subopDecode (s.readWord s.pc.toNat) with
    | .error _ => .next (s.markStepped.advance.raise .unknownOpcode)
    | .ok i => exec i s.markStepped.advance

/-- `Tick()`: both timers, independently; the audio collaborator is told of a sound edge (60_exceptions.md R220, R223). -/
def State.tick (s : State) : State := (s.setDt (countDown s.dt)).setSt (countDown s.st)

/-- The effect of `Load(image)`: the image at 0x200, then pc (70_reset_and_hazards.md R244). -/
def State.loaded (s : State) (image : List Byte) : State :=
  (s.storeBytes progBase image).setPc (BitVec.ofNat 16 progBase)

/-- `Load(image)`, only before the first Step and only of an image that fits (70_reset_and_hazards.md R244, R245, R247). -/
def doLoad (image : List Byte) (s : State) : Outcome State Fault Refusal :=
  if s.stepped then .refused .loadAfterFirstStep
  else if maxImage < image.length then .refused (.romTooLarge image.length)
  else .next (s.loaded image)

/-- A load whose image cannot be read: "fatal at startup" (70_reset_and_hazards.md R245). -/
def doLoadUnreadable (s : State) : Outcome State Fault Refusal :=
  if s.stepped then .refused .loadAfterFirstStep else .fault .romReadFailure

/-- `Seed(value)`, only before the first Step (10_state.md R34, 70_reset_and_hazards.md R248). -/
def doSeed (value : BitVec 32) (s : State) : Outcome State Fault Refusal :=
  if s.stepped then .refused .seedAfterFirstStep else .next { s with prng := value }

/-- One transaction of the host (10_state.md R35). -/
def perform (t : Transaction) (s : State) : Outcome State Fault Refusal :=
  match t with
  | .step => engineStep s
  | .tick => .next s.tick
  | .load image => doLoad image s
  | .loadUnreadable => doLoadUnreadable s
  | .seed value => doSeed value s
  | .keys pressed => .next { s with keys := pressed }

/-- The host's next transaction, taken off its list; with none left the host issues a Step (10_state.md R35, R39). -/
def nextTransaction (s : State) : Outcome State Fault Refusal :=
  match s.host with
  | [] => perform .step s
  | t :: rest => perform t { s with host := rest }

/-- The state whose next step fetches and runs the word `w`: the word's two bytes at pc (at 0x200 where nothing can be
fetched at pc), and no other transaction before it. Only the low `nbits` bits of `w` are used, numbered as
spec/opcode_table.json numbers them. -/
def placeFetchWord (s : State) (nbits w : Nat) : State :=
  let word : Word := BitVec.ofNat 16 (w % 2 ^ nbits)
  let t : State := { s with host := [], pc := if s.checkFetch = none then s.pc else BitVec.ofNat 16 progBase }
  t.storeBytes t.pc.toNat [wordByte0 word, wordByte1 word]

end Sys2Proof.Machine
end

