-- ==== Sys2Proof/Machine/Step.lean ====
section
/-! DEFINITION. The machine's step: the host's next transaction, a Step of the engine when none is pending. -/

namespace Sys2Proof.Machine

def step (s : State) : Host.Outcome State Fault Refusal := nextTransaction s

/-- The state with that instruction stored where `step` fetches its next instruction (log entry 8). -/
def State.withFetchWord (s : State) (nbits w : Nat) : State := placeFetchWord s nbits w

end Sys2Proof.Machine
end

