-- ==== Sys2Proof/Safety.lean ====
section
/-! DEFINITION. What counts as a good run, the invariants of the machine, and the words the statements about it use. -/

namespace Sys2Proof.Machine

/-! ### Runs -/

/-- The state a fresh CORE is in, with the keys and the future transactions the host chooses
(70_reset_and_hazards.md R240, R246, R248). -/
def State.fresh (c : Config) (keys : BitVec 16) (host : List Transaction) : State :=
  { State.create c with keys := keys, host := host }

/-- A state some run of some host reaches from creation: every program image, key pattern and schedule of Ticks is among
them, since the host's transactions are. -/
inductive Reachable : State → Prop where
  | fresh (c : Config) (keys : BitVec 16) (host : List Transaction) : Reachable (State.fresh c keys host)
  | next {s t : State} (h : Reachable s) (hs : step s = .next t) : Reachable t

/-- The host's next transaction is a Step, and `u` is the state once it is taken off the host's list. -/
def StepIssued (s u : State) : Prop :=
  (s.host = [] ∧ u = s) ∨ ∃ rest, s.host = .step :: rest ∧ u = { s with host := rest }

/-- No Step has raised an error (60_exceptions.md R202). -/
def State.clean (s : State) : Prop := s.faults = []

/-- The idle end of a run: the word at pc is 1NNN with NNN = pc, and no error was raised (70_reset_and_hazards.md R250). -/
def State.idle (s : State) : Prop :=
  s.clean ∧ s.pc.toNat ≤ 0x0FFE ∧ (s.readWord s.pc.toNat).toNat = 0x1000 + s.pc.toNat

/-- The result of a run: an idle end with both timers at 0 (70_reset_and_hazards.md R250). -/
def State.result (s : State) : Prop := s.idle ∧ s.dt = 0 ∧ s.st = 0

/-! ### Invariants -/

/-- The memory is in its canonical form. -/
def State.memCanonical (s : State) : Prop := Memory.wf s.config s.mem = true

/-- pc never exceeds 0x10FE (10_state.md R26), because a pushed address never exceeds 0x1000 (40_flow.md R103). -/
def State.pcBounded (s : State) : Prop :=
  s.pc.toNat ≤ 0x10FE ∧ ∀ k : Fin 32, (s.stack[k]).toNat ≤ 0x1000

/-- The font table holds `FONT` unless it is writable (20_memory.md R69). -/
def State.fontIntact (s : State) : Prop :=
  s.config.fontWritable = false → ∀ a, 0x050 ≤ a → a < 0x0A0 → s.readByte a = s.config.font.getD (a - 0x050) 0

/-- The audio gate after some calls, from `on`; none when a call repeats the gate's state. -/
def gateAfter (on : Bool) : List AudioCall → Option Bool
  | [] => some on
  | .enable :: rest => if on then none else gateAfter true rest
  | .disable :: rest => if on then gateAfter false rest else none

/-- The calls made so far leave the audio gate at `sound_active`, and none of them is redundant (60_exceptions.md R223). -/
def State.soundMatches (s : State) : Prop := gateAfter false s.audio = some (s.st != 0)

/-- What a record of each error must say: W is absent exactly when the fetch itself failed, which takes ipc above 0x0FFE and
only MemoryOutOfBounds can report; and the detail is one the error's cause allows (60_exceptions.md R200, R206, R207, R208). -/
def ErrorRecord.sound (r : ErrorRecord) : Prop :=
  (r.word = none ↔ 0x0FFE < r.ipc.toNat) ∧
  match r.kind with
  | .memoryOutOfBounds a => 0x1000 ≤ a ∧ a < 0x10000
  | .keyIndexOutOfRange k => 15 < k.toNat ∧ r.word ≠ none
  | .immutableWrite a => 0x050 ≤ a ∧ a < 0x0A0 ∧ r.word ≠ none
  | .unknownOpcode | .stackOverflow | .stackUnderflow => r.word ≠ none

/-- Every record is one an error can leave. -/
def State.recordsSound (s : State) : Prop := ∀ r ∈ s.faults, r.sound

/-! ### Words the statements use -/

/-- The record of an error raised in the execute phase at `s`: `ipc` is pc - 2, and W is the word there (R200). -/
def recordAt (s : State) (e : ErrorKind) : ErrorRecord :=
  { kind := e, ipc := s.pc - 2, word := some (instrWord (s.readByte (s.pc - 2).toNat) (s.readByte ((s.pc - 2).toNat + 1))) }

/-- The instruction raises the error, and nothing but the list of records changes (60_exceptions.md R201). -/
def Raises (i : Instr) (s : State) (e : ErrorKind) : Prop :=
  exec i s = .next { s with faults := s.faults ++ [recordAt s e] }

/-- Every word that matches the row decodes, under each setting of `SUBOP_DECODE`, to the instruction with its own fields. -/
def EncodedAs (pattern mask : Word) (mk : Word → Instr) : Prop :=
  ∀ mode w, w &&& mask = pattern → decode mode w = .ok (mk w)

end Sys2Proof.Machine
end

