-- ==== Sys2Proof/Certificates/Slice0/Obligations.lean ====
section
/-! DEFINITION. The statements for the provers. Each docstring names the rules of spec/ it formalises. -/

open Sys2Proof Sys2Proof.Machine

/-! ### Decoding and encoding -/

/-- 30_encoding.md R82, R86: one word of each format, written out from the encoding table, decodes to its instruction. -/
def Obligations.SampleWordsDecode : Prop :=
  decode .strict 0b0000_0000_1110_1110 = .ok .ret ∧
  decode .strict 0b0010_1010_1011_1100 = .ok (.call 0xABC) ∧
  decode .strict 0b0110_0001_1010_1011 = .ok (.ldImm 1 0xAB) ∧
  decode .strict 0b1000_0001_0010_0100 = .ok (.addReg 1 2) ∧
  decode .strict 0b1101_0001_0010_0101 = .ok (.drw 1 2 5) ∧
  decode .strict 0b1111_0010_0101_0101 = .ok (.ldMemVx 2) ∧
  decode .strict 0b0101_0001_0010_0001 = .error (.unknownOpcode 0x5121) ∧
  decode .loose 0b0101_0001_0010_0001 = .ok (.seReg 1 2)

/-- 30_encoding.md R82, R84, R86, R87: decoding the word of a well-formed instruction gives it back, with every operand at
every value, under each setting of `SUBOP_DECODE`. -/
def Obligations.DecodeOfEncode : Prop :=
  ∀ mode (i : Instr), i.wellFormed = true → decode mode (encode i) = .ok i

/-- 30_encoding.md R86, R88: under strict decode every digit of a word is in its instruction: the word comes back from the
instruction it decodes to, which is well formed. -/
def Obligations.EncodeOfDecodeStrict : Prop :=
  ∀ (w : Word) (i : Instr), decode .strict w = .ok i → i.wellFormed = true ∧ encode i = w

/-- 30_encoding.md R86, R87, R88: the dispatch decodes a word to an instruction exactly when the word has the fixed digits
of the instruction's row in the opcode map and the instruction's operands are the word's fields. -/
def Obligations.DispatchMatchesOpcodeMap : Prop :=
  ∀ mode (w : Word) (i : Instr), decode mode w = .ok i ↔
    w &&& i.row.maskOf mode = i.row.pattern ∧ i.withFields w = i

/-- 30_encoding.md R89: the unknown words under strict decode, group by group; every group holds an instruction; and a
Step that decodes an unknown word raises UnknownOpcode(ipc, W). -/
def Obligations.UnknownWordsUnderStrictDecode : Prop :=
  (∀ w : Word, decode .strict w = .error (.unknownOpcode w) ↔
    (fieldG w = 0x0 ∧ w ≠ 0x00E0 ∧ w ≠ 0x00EE) ∨
    ((fieldG w = 0x5 ∨ fieldG w = 0x9) ∧ fieldN w ≠ 0) ∨
    (fieldG w = 0x8 ∧ fieldN w ∈ [0x8, 0x9, 0xA, 0xB, 0xC, 0xD, 0xF]) ∨
    (fieldG w = 0xE ∧ fieldNN w ∉ [0x9E#8, 0xA1#8]) ∨
    (fieldG w = 0xF ∧ fieldNN w ∉ [0x07#8, 0x0A#8, 0x15#8, 0x18#8, 0x1E#8, 0x29#8, 0x33#8, 0x55#8, 0x65#8])) ∧
  (∀ g : BitVec 4, ∃ (w : Word) (i : Instr), fieldG w = g ∧ decode .strict w = .ok i) ∧
  (∀ s u : State, StepIssued s u → u.pc.toNat ≤ 0x0FFE →
    decode u.config.subopDecode (u.readWord u.pc.toNat) = .error (.unknownOpcode (u.readWord u.pc.toNat)) →
    step s = .next { u with
      pc := u.pc + 2, stepped := true,
      faults := u.faults ++ [{ kind := .unknownOpcode, ipc := u.pc, word := some (u.readWord u.pc.toNat) }] })

/-- 30_encoding.md R88: loose decode reads group 0x0 by NN alone and ignores N in groups 0x5 and 0x9; in every other group
it decodes as strict decode does, and whatever strict decode reads it reads the same. -/
def Obligations.LooseDecodeDiffersInThreeGroups : Prop :=
  ∀ w : Word,
    (fieldG w = 0x0 → fieldNN w = 0xE0 → decode .loose w = .ok .cls) ∧
    (fieldG w = 0x0 → fieldNN w = 0xEE → decode .loose w = .ok .ret) ∧
    (fieldG w = 0x0 → fieldNN w ≠ 0xE0 → fieldNN w ≠ 0xEE → decode .loose w = .error (.unknownOpcode w)) ∧
    (fieldG w = 0x5 → decode .loose w = .ok (.seReg (fieldX w) (fieldY w))) ∧
    (fieldG w = 0x9 → decode .loose w = .ok (.sneReg (fieldX w) (fieldY w))) ∧
    (fieldG w ≠ 0x0 → fieldG w ≠ 0x5 → fieldG w ≠ 0x9 → decode .loose w = decode .strict w) ∧
    (∀ i, decode .strict w = .ok i → decode .loose w = .ok i)

/-! ### The step -/

/-- 30_encoding.md R80, 20_memory.md R64: a Step with pc at most 0x0FFE executes the instruction its two bytes decode to,
which is well formed, in the state with pc advanced by 2 (and the model's record that a Step was issued); an unknown word raises
UnknownOpcode; a fetch out of range raises MemoryOutOfBounds for the lowest address read that is out of range, pc stays and
nothing else changes. -/
def Obligations.StepRunsDecodedInstruction : Prop :=
  ∀ (s u : State) (w : Word), StepIssued s u → w = instrWord (u.readByte u.pc.toNat) (u.readByte (u.pc.toNat + 1)) →
    (∀ i, u.pc.toNat ≤ 0x0FFE → decode u.config.subopDecode w = .ok i →
      i.wellFormed = true ∧ step s = exec i { u with pc := u.pc + 2, stepped := true }) ∧
    (∀ e, u.pc.toNat ≤ 0x0FFE → decode u.config.subopDecode w = .error e →
      step s = .next { u with
        pc := u.pc + 2, stepped := true,
        faults := u.faults ++ [{ kind := .unknownOpcode, ipc := u.pc, word := some w }] }) ∧
    (0x1000 ≤ u.pc.toNat → step s = .next { u with
      stepped := true, faults := u.faults ++ [{ kind := .memoryOutOfBounds u.pc.toNat, ipc := u.pc, word := none }] }) ∧
    (u.pc.toNat = 0x0FFF → step s = .next { u with
      stepped := true, faults := u.faults ++ [{ kind := .memoryOutOfBounds 0x1000, ipc := u.pc, word := none }] })

/-! ### Control transfer -/

/-- 40_flow.md R101: 00EE pops pc, and on an empty stack raises StackUnderflow with sp, pc and the stack unchanged. -/
def Obligations.ReturnPopsCallStack : Prop :=
  (decode .strict 0x00EE = .ok .ret ∧ ∀ w, w ≠ 0x00EE → decode .strict w ≠ .ok .ret) ∧
  ∀ s : State,
    (0 < s.sp.val → ∃ t, exec .ret s = .next t ∧ t.sp.val + 1 = s.sp.val ∧
      (∀ k : Fin 32, k.val = t.sp.val → t.pc = s.stack[k]) ∧ t = { s with sp := t.sp, pc := t.pc }) ∧
    (s.sp.val = 0 → Raises .ret s .stackUnderflow)

/-- 40_flow.md R102: 1NNN sets pc to NNN and changes nothing else; a jump to 0xFFF makes the next Step raise
MemoryOutOfBounds at its fetch. -/
def Obligations.JumpSetsPc : Prop :=
  EncodedAs 0x1000 0xF000 (fun w => .jp (fieldNNN w)) ∧
  ∀ (s : State) (nnn : Addr12), ∃ t, exec (.jp nnn) s = .next t ∧ t.pc.toNat = nnn.toNat ∧ t = { s with pc := t.pc } ∧
    (∀ u, StepIssued t u → nnn = 0xFFF → step t = .next { u with
      stepped := true, faults := u.faults ++ [{ kind := .memoryOutOfBounds 0x1000, ipc := u.pc, word := none }] })

/-- 40_flow.md R108: BNNN sets pc to NNN + x[0], not reduced modulo 4096, and changes nothing else; an out-of-range target is
raised by the next Step. -/
def Obligations.IndexedJumpAddsRegisterZero : Prop :=
  EncodedAs 0xB000 0xF000 (fun w => .jpV0 (fieldNNN w)) ∧
  ∀ (s : State) (nnn : Addr12), ∃ t, exec (.jpV0 nnn) s = .next t ∧
    t.pc.toNat = nnn.toNat + (s.reg 0).toNat ∧ t.pc.toNat ≤ 0x10FE ∧ t = { s with pc := t.pc } ∧
    (∀ u, StepIssued t u → 0x0FFF ≤ t.pc.toNat → step t = .next { u with
      stepped := true,
      faults := u.faults ++ [{ kind := .memoryOutOfBounds (max t.pc.toNat 0x1000), ipc := u.pc, word := none }] })

/-- 40_flow.md R103: 2NNN pushes pc (ipc + 2) and jumps, and on a full stack raises StackOverflow with the stack, sp and pc
unchanged. -/
def Obligations.CallPushesReturnAddress : Prop :=
  EncodedAs 0x2000 0xF000 (fun w => .call (fieldNNN w)) ∧
  ∀ (s : State) (nnn : Addr12),
    (s.sp.val < 32 → ∃ t, exec (.call nnn) s = .next t ∧ t.sp.val = s.sp.val + 1 ∧ t.pc.toNat = nnn.toNat ∧
      (∀ k : Fin 32, t.stack[k] = if k.val = s.sp.val then s.pc else s.stack[k]) ∧
      t = { s with sp := t.sp, pc := t.pc, stack := t.stack }) ∧
    (s.sp.val = 32 → Raises (.call nnn) s .stackOverflow)

/-- 40_flow.md R103 (the property it quotes), R101: a call and then a return, wherever the subroutine left pc, come back to the
instruction after the call with the stack pointer of before. -/
def Obligations.CallThenReturnComesBack : Prop :=
  ∀ (s t : State) (nnn : Addr12) (p : Word), s.sp.val < 32 → exec (.call nnn) s = .next t →
    ∃ u, exec .ret { t with pc := p } = .next u ∧ u.pc = s.pc ∧ u.sp = s.sp ∧ u.faults = s.faults

/-- 40_flow.md R104, R105: 3XNN and 4XNN skip on equality and on difference with the immediate, and change pc only. -/
def Obligations.ImmediateSkips : Prop :=
  EncodedAs 0x3000 0xF000 (fun w => .seImm (fieldX w) (fieldNN w)) ∧
  EncodedAs 0x4000 0xF000 (fun w => .sneImm (fieldX w) (fieldNN w)) ∧
  ∀ (s : State) (x : RegIdx) (nn : Byte),
    exec (.seImm x nn) s = .next { s with pc := if (s.reg x).toNat = nn.toNat then s.pc + 2 else s.pc } ∧
    exec (.sneImm x nn) s = .next { s with pc := if (s.reg x).toNat = nn.toNat then s.pc else s.pc + 2 }

/-- 40_flow.md R106, R107: 5XY0 and 9XY0 skip on equality and on difference of two registers, and change pc only; under
strict decode a word with N ≠ 0 is unknown. -/
def Obligations.RegisterSkips : Prop :=
  (∀ mode w, w &&& (if mode = .strict then 0xF00F else 0xF000) = 0x5000 → decode mode w = .ok (.seReg (fieldX w) (fieldY w))) ∧
  (∀ mode w, w &&& (if mode = .strict then 0xF00F else 0xF000) = 0x9000 → decode mode w = .ok (.sneReg (fieldX w) (fieldY w))) ∧
  (∀ w, fieldG w = 0x5 ∨ fieldG w = 0x9 → fieldN w ≠ 0 → decode .strict w = .error (.unknownOpcode w)) ∧
  ∀ (s : State) (x y : RegIdx),
    exec (.seReg x y) s = .next { s with pc := if (s.reg x).toNat = (s.reg y).toNat then s.pc + 2 else s.pc } ∧
    exec (.sneReg x y) s = .next { s with pc := if (s.reg x).toNat = (s.reg y).toNat then s.pc else s.pc + 2 }

/-- 40_flow.md R100: a taken skip leaves pc = ipc + 4 and an untaken one ipc + 2, for each of the six skips; it raises no
error and looks at no byte of memory, whatever the skipped word is. -/
def Obligations.SkipAddsTwoWhateverIsSkipped : Prop :=
  ∀ (s t : State) (i : Instr) (m : Memory),
    (∃ x y nn, i ∈ [Instr.seImm x nn, .sneImm x nn, .seReg x y, .sneReg x y, .skp x, .sknp x]) →
    exec i s = .next t → t.faults = s.faults →
    (t.pc = s.pc + 2 ∨ t.pc = s.pc) ∧ t = { s with pc := t.pc } ∧
    exec i { s with mem := m } = .next { t with mem := m }

/-! ### Registers, arithmetic, logic, shifts and random -/

/-- 41_alu.md R120, R122: 6XNN and 8XY0 write x[X] and nothing else. -/
def Obligations.RegisterLoads : Prop :=
  EncodedAs 0x6000 0xF000 (fun w => .ldImm (fieldX w) (fieldNN w)) ∧
  EncodedAs 0x8000 0xF00F (fun w => .ldReg (fieldX w) (fieldY w)) ∧
  ∀ (s : State) (x y : RegIdx) (nn : Byte),
    (∃ t, exec (.ldImm x nn) s = .next t ∧ t.reg x = nn ∧ (∀ r, r ≠ x → t.reg r = s.reg r) ∧ t = { s with x := t.x }) ∧
    (∃ t, exec (.ldReg x y) s = .next t ∧ t.reg x = s.reg y ∧ (∀ r, r ≠ x → t.reg r = s.reg r) ∧ t = { s with x := t.x })

/-- 41_alu.md R121: 7XNN adds modulo 256 and writes no flag. -/
def Obligations.AddImmediateWritesNoFlag : Prop :=
  EncodedAs 0x7000 0xF000 (fun w => .addImm (fieldX w) (fieldNN w)) ∧
  ∀ (s : State) (x : RegIdx) (nn : Byte), ∃ t, exec (.addImm x nn) s = .next t ∧
    (t.reg x).toNat = ((s.reg x).toNat + nn.toNat) % 256 ∧ (∀ r, r ≠ x → t.reg r = s.reg r) ∧ t = { s with x := t.x }

/-- 41_alu.md R123, R124, R125: the logic operations, bit by bit; x[15] changes only when X = 15. -/
def Obligations.LogicIsBitwiseWithoutFlag : Prop :=
  EncodedAs 0x8001 0xF00F (fun w => .orReg (fieldX w) (fieldY w)) ∧
  EncodedAs 0x8002 0xF00F (fun w => .andReg (fieldX w) (fieldY w)) ∧
  EncodedAs 0x8003 0xF00F (fun w => .xorReg (fieldX w) (fieldY w)) ∧
  ∀ (s : State) (x y : RegIdx),
    (∃ t, exec (.orReg x y) s = .next t ∧ (∀ b, (t.reg x).getLsbD b = ((s.reg x).getLsbD b || (s.reg y).getLsbD b)) ∧
      (∀ r, r ≠ x → t.reg r = s.reg r) ∧ t = { s with x := t.x }) ∧
    (∃ t, exec (.andReg x y) s = .next t ∧ (∀ b, (t.reg x).getLsbD b = ((s.reg x).getLsbD b && (s.reg y).getLsbD b)) ∧
      (∀ r, r ≠ x → t.reg r = s.reg r) ∧ t = { s with x := t.x }) ∧
    (∃ t, exec (.xorReg x y) s = .next t ∧ (∀ b, (t.reg x).getLsbD b = ((s.reg x).getLsbD b ^^ (s.reg y).getLsbD b)) ∧
      (∀ r, r ≠ x → t.reg r = s.reg r) ∧ t = { s with x := t.x })

/-- 41_alu.md R126: 8XY4 leaves the sum modulo 256 in x[X] and the carry in x[15], the carry last. -/
def Obligations.AddRegistersSetsCarry : Prop :=
  EncodedAs 0x8004 0xF00F (fun w => .addReg (fieldX w) (fieldY w)) ∧
  ∀ (s : State) (x y : RegIdx), ∃ t, exec (.addReg x y) s = .next t ∧
    (x ≠ 15 → (t.reg x).toNat = ((s.reg x).toNat + (s.reg y).toNat) % 256) ∧
    t.reg 15 = (if 255 < (s.reg x).toNat + (s.reg y).toNat then 1 else 0) ∧
    (∀ r, r ≠ x → r ≠ 15 → t.reg r = s.reg r) ∧ t = { s with x := t.x }

/-- 41_alu.md R127, R128: 8XY5 and 8XY7 leave the difference modulo 256 in x[X] and no-borrow (minuend ≥ subtrahend) in
x[15], the flag last. -/
def Obligations.SubtractionsSetNoBorrow : Prop :=
  EncodedAs 0x8005 0xF00F (fun w => .subReg (fieldX w) (fieldY w)) ∧
  EncodedAs 0x8007 0xF00F (fun w => .subnReg (fieldX w) (fieldY w)) ∧
  ∀ (s : State) (x y : RegIdx),
    (∃ t, exec (.subReg x y) s = .next t ∧
      (x ≠ 15 → (t.reg x).toNat = ((s.reg x).toNat + 256 - (s.reg y).toNat) % 256) ∧
      t.reg 15 = (if (s.reg y).toNat ≤ (s.reg x).toNat then 1 else 0) ∧
      (∀ r, r ≠ x → r ≠ 15 → t.reg r = s.reg r) ∧ t = { s with x := t.x }) ∧
    (∃ t, exec (.subnReg x y) s = .next t ∧
      (x ≠ 15 → (t.reg x).toNat = ((s.reg y).toNat + 256 - (s.reg x).toNat) % 256) ∧
      t.reg 15 = (if (s.reg x).toNat ≤ (s.reg y).toNat then 1 else 0) ∧
      (∀ r, r ≠ x → r ≠ 15 → t.reg r = s.reg r) ∧ t = { s with x := t.x })

/-- 41_alu.md R129, R130: 8XY6 and 8XYE shift x[Y] by one into x[X] and leave the lost bit in x[15], the flag last. -/
def Obligations.ShiftsTakeTheirOperandFromY : Prop :=
  EncodedAs 0x8006 0xF00F (fun w => .shrReg (fieldX w) (fieldY w)) ∧
  EncodedAs 0x800E 0xF00F (fun w => .shlReg (fieldX w) (fieldY w)) ∧
  ∀ (s : State) (x y : RegIdx),
    (∃ t, exec (.shrReg x y) s = .next t ∧
      (x ≠ 15 → (t.reg x).toNat = (s.reg y).toNat / 2) ∧ (t.reg 15).toNat = (s.reg y).toNat % 2 ∧
      (∀ r, r ≠ x → r ≠ 15 → t.reg r = s.reg r) ∧ t = { s with x := t.x }) ∧
    (∃ t, exec (.shlReg x y) s = .next t ∧
      (x ≠ 15 → (t.reg x).toNat = (s.reg y).toNat * 2 % 256) ∧ (t.reg 15).toNat = (s.reg y).toNat / 128 ∧
      (∀ r, r ≠ x → r ≠ 15 → t.reg r = s.reg r) ∧ t = { s with x := t.x })

/-- 41_alu.md R131, R137: CXNN advances the generator by the three xorshift steps, whatever NN is, and leaves the new state's
low byte masked by NN in x[X]; from seed 0 every output is 0, and seed 4 gives 0x00108084 and 0x84 first. -/
def Obligations.RandomAdvancesXorshift : Prop :=
  EncodedAs 0xC000 0xF000 (fun w => .rnd (fieldX w) (fieldNN w)) ∧
  (∀ (s : State) (x : RegIdx) (nn : Byte), ∃ t a b,
    exec (.rnd x nn) s = .next t ∧
    a = s.prng ^^^ BitVec.ofNat 32 (s.prng.toNat * 2 ^ 13) ∧
    b = a ^^^ BitVec.ofNat 32 (a.toNat / 2 ^ 17) ∧
    t.prng = b ^^^ BitVec.ofNat 32 (b.toNat * 2 ^ 5) ∧
    (t.reg x).toNat = nn.toNat &&& (t.prng.toNat % 256) ∧
    (∀ r, r ≠ x → t.reg r = s.reg r) ∧ t = { s with x := t.x, prng := t.prng } ∧
    (s.prng = 0 → t.prng = 0 ∧ t.reg x = 0) ∧
    (s.prng = 4 → t.prng = 0x00108084 ∧ t.reg x = nn &&& 0x84))

/-! ### The index register and memory -/

/-- 42_index_memory.md R150, R151, R152: ANNN, FX1E and FX29 set I, write no flag and make no check. -/
def Obligations.IndexRegisterLoads : Prop :=
  EncodedAs 0xA000 0xF000 (fun w => .ldI (fieldNNN w)) ∧
  EncodedAs 0xF01E 0xF0FF (fun w => .addI (fieldX w)) ∧
  EncodedAs 0xF029 0xF0FF (fun w => .ldF (fieldX w)) ∧
  ∀ (s : State) (x : RegIdx) (nnn : Addr12),
    (∃ t, exec (.ldI nnn) s = .next t ∧ t.i.toNat = nnn.toNat ∧ t = { s with i := t.i }) ∧
    (∃ t, exec (.addI x) s = .next t ∧ t.i.toNat = (s.i.toNat + (s.reg x).toNat) % 65536 ∧ t = { s with i := t.i }) ∧
    (∃ t, exec (.ldF x) s = .next t ∧ t.i.toNat = 0x050 + 5 * (s.reg x).toNat ∧ t = { s with i := t.i })

/-- 42_index_memory.md R153: FX33 stores the three decimal digits at I, I + 1, I + 2 and leaves every other byte and I as they
were; out of range and in the protected font it raises its error for the lowest such address and writes nothing. -/
def Obligations.DecimalDigitsStored : Prop :=
  EncodedAs 0xF033 0xF0FF (fun w => .ldB (fieldX w)) ∧
  ∀ (s : State) (x : RegIdx),
    (s.i.toNat + 2 < 0x1000 → (s.config.fontWritable = true ∨ s.i.toNat + 2 < 0x050 ∨ 0x0A0 ≤ s.i.toNat) →
      ∃ t, exec (.ldB x) s = .next t ∧
        (t.readByte s.i.toNat).toNat = (s.reg x).toNat / 100 ∧
        (t.readByte (s.i.toNat + 1)).toNat = (s.reg x).toNat / 10 % 10 ∧
        (t.readByte (s.i.toNat + 2)).toNat = (s.reg x).toNat % 10 ∧
        (∀ a, a < s.i.toNat ∨ s.i.toNat + 2 < a → t.readByte a = s.readByte a) ∧ t = { s with mem := t.mem }) ∧
    (0x1000 ≤ s.i.toNat + 2 → Raises (.ldB x) s (.memoryOutOfBounds (max s.i.toNat 0x1000))) ∧
    (s.config.fontWritable = false → 0x050 ≤ s.i.toNat + 2 → s.i.toNat < 0x0A0 →
      Raises (.ldB x) s (.immutableWrite (max s.i.toNat 0x050)))

/-- 42_index_memory.md R154: FX55 stores x[0..=X] at I, I + 1, … and leaves every other byte and I as they were; out of
range and in the protected font it raises its error for the lowest such address and writes nothing. -/
def Obligations.RegisterBlockStored : Prop :=
  EncodedAs 0xF055 0xF0FF (fun w => .ldMemVx (fieldX w)) ∧
  ∀ (s : State) (x : RegIdx),
    (s.i.toNat + x.val < 0x1000 → (s.config.fontWritable = true ∨ s.i.toNat + x.val < 0x050 ∨ 0x0A0 ≤ s.i.toNat) →
      ∃ t, exec (.ldMemVx x) s = .next t ∧
        (∀ k : RegIdx, k ≤ x → t.readByte (s.i.toNat + k.val) = s.reg k) ∧
        (∀ a, a < s.i.toNat ∨ s.i.toNat + x.val < a → t.readByte a = s.readByte a) ∧ t = { s with mem := t.mem }) ∧
    (0x1000 ≤ s.i.toNat + x.val → Raises (.ldMemVx x) s (.memoryOutOfBounds (max s.i.toNat 0x1000))) ∧
    (s.config.fontWritable = false → 0x050 ≤ s.i.toNat + x.val → s.i.toNat < 0x0A0 →
      Raises (.ldMemVx x) s (.immutableWrite (max s.i.toNat 0x050)))

/-- 42_index_memory.md R155: FX65 loads x[0..=X] from I, I + 1, … (the font region too) and leaves every other register, I
and memory as they were; out of range it raises its error and writes no register. -/
def Obligations.RegisterBlockLoaded : Prop :=
  EncodedAs 0xF065 0xF0FF (fun w => .ldVxMem (fieldX w)) ∧
  ∀ (s : State) (x : RegIdx),
    (s.i.toNat + x.val < 0x1000 →
      ∃ t, exec (.ldVxMem x) s = .next t ∧
        (∀ k : RegIdx, k ≤ x → t.reg k = s.readByte (s.i.toNat + k.val)) ∧
        (∀ k : RegIdx, x < k → t.reg k = s.reg k) ∧ t = { s with x := t.x }) ∧
    (0x1000 ≤ s.i.toNat + x.val → Raises (.ldVxMem x) s (.memoryOutOfBounds (max s.i.toNat 0x1000)))

/-- 20_memory.md R74, R65: what FX55 stores is what the next fetch reads: two adjacent stored bytes are the word of an
instruction, the lower address the more significant. -/
def Obligations.StoredBytesAreFetched : Prop :=
  ∀ (s t : State) (x k j : RegIdx), exec (.ldMemVx x) s = .next t → t.faults = s.faults → j ≤ x → j.val = k.val + 1 →
    (t.readWord (s.i.toNat + k.val)).toNat = (s.reg k).toNat * 256 + (s.reg j).toNat

/-! ### The display -/

/-- 43_display.md R170: 00E0 turns every pixel off and changes nothing else. -/
def Obligations.ClearTurnsEveryPixelOff : Prop :=
  decode .strict 0x00E0 = .ok .cls ∧ (∀ w, w ≠ 0x00E0 → decode .strict w ≠ .ok .cls) ∧
  ∀ s : State, ∃ t, exec .cls s = .next t ∧ (∀ (px : Fin 64) (py : Fin 32), t.disp[py][px] = false) ∧
    t = { s with disp := t.disp }

/-- 43_display.md R171, R172, R174, R176: DXYN flips exactly the pixels its sprite's 1 bits cover on the grid, bit 7 leftmost,
from (x[X] mod 64, x[Y] mod 32), clipped; x[15] is 1 when one of them was on and 0 otherwise; a sprite out of range raises
MemoryOutOfBounds with nothing drawn. The bit order and the flag's 0 are the spec's decisions D17 and D16 (log entry 9). -/
def Obligations.DrawFlipsTheSpritesPixels : Prop :=
  EncodedAs 0xD000 0xF000 (fun w => .drw (fieldX w) (fieldY w) (fieldN w)) ∧
  ∀ (s : State) (x y : RegIdx) (n : Nat) (bit : Fin 64 → Fin 32 → Bool),
    (∀ px py, bit px py = true ↔ ∃ r col : Nat, r < n ∧ col < 8 ∧
      px.val = (s.reg x).toNat % 64 + col ∧ py.val = (s.reg y).toNat % 32 + r ∧
      (s.readByte (s.i.toNat + r)).getLsbD (7 - col) = true) →
    (n = 0 ∨ s.i.toNat + n ≤ 0x1000 →
      ∃ t, exec (.drw x y n) s = .next t ∧
        (∀ (px : Fin 64) (py : Fin 32), t.disp[py][px] = (s.disp[py][px] ^^ bit px py)) ∧
        ((∃ (px : Fin 64) (py : Fin 32), bit px py = true ∧ s.disp[py][px] = true) → t.reg 15 = 1) ∧
        ((∀ (px : Fin 64) (py : Fin 32), bit px py = true → s.disp[py][px] = false) → t.reg 15 = 0) ∧
        (∀ r, r ≠ 15 → t.reg r = s.reg r) ∧ t = { s with x := t.x, disp := t.disp }) ∧
    (n ≠ 0 → 0x1000 < s.i.toNat + n → Raises (.drw x y n) s (.memoryOutOfBounds (max s.i.toNat 0x1000)))

/-- 43_display.md R171, R173: drawing the same sprite at the same place twice restores the display, and if the first draw
changed a clear display it reports no collision and the second reports one. X and Y are not register 15, which the first draw
writes. -/
def Obligations.DrawingTwiceRestoresTheDisplay : Prop :=
  ∀ (s t u : State) (x y : RegIdx) (n : Nat), x ≠ 15 → y ≠ 15 → (n = 0 ∨ s.i.toNat + n ≤ 0x1000) →
    exec (.drw x y n) s = .next t → exec (.drw x y n) t = .next u →
    u.disp = s.disp ∧
    ((∀ (px : Fin 64) (py : Fin 32), s.disp[py][px] = false) → t.disp ≠ s.disp → t.reg 15 = 0 ∧ u.reg 15 = 1)

/-! ### Keypad and timers -/

/-- 44_input_timers.md R180, R181, R187: EX9E and EXA1 skip on the sampled level of key x[X], and an index above 15 raises
KeyIndexOutOfRange. -/
def Obligations.KeySkipsTestTheSample : Prop :=
  EncodedAs 0xE09E 0xF0FF (fun w => .skp (fieldX w)) ∧
  EncodedAs 0xE0A1 0xF0FF (fun w => .sknp (fieldX w)) ∧
  ∀ (s : State) (x : RegIdx),
    ((s.reg x).toNat ≤ 15 →
      exec (.skp x) s = .next { s with pc := if s.keys.getLsbD (s.reg x).toNat then s.pc + 2 else s.pc } ∧
      exec (.sknp x) s = .next { s with pc := if s.keys.getLsbD (s.reg x).toNat then s.pc else s.pc + 2 }) ∧
    (15 < (s.reg x).toNat →
      Raises (.skp x) s (.keyIndexOutOfRange (s.reg x)) ∧ Raises (.sknp x) s (.keyIndexOutOfRange (s.reg x)))

/-- 44_input_timers.md R182: FX0A leaves the lowest pressed key in x[X]; with no key pressed it only puts pc back to ipc. -/
def Obligations.KeyWaitPolls : Prop :=
  EncodedAs 0xF00A 0xF0FF (fun w => .ldVxK (fieldX w)) ∧
  ∀ (s : State) (x : RegIdx),
    (∀ k : Fin 16, s.keys.getLsbD k = true → (∀ j : Fin 16, j < k → s.keys.getLsbD j = false) →
      ∃ t, exec (.ldVxK x) s = .next t ∧ (t.reg x).toNat = k.val ∧ (∀ r, r ≠ x → t.reg r = s.reg r) ∧
        t = { s with x := t.x }) ∧
    ((∀ k : Fin 16, s.keys.getLsbD k = false) → exec (.ldVxK x) s = .next { s with pc := s.pc - 2 })

/-- 44_input_timers.md R183, R184, R185: FX07 reads DT, FX15 writes DT and FX18 writes ST, after which the sound is active
exactly when ST is not 0. Which opcode does which is the spec's decision D14 (log entry 9). -/
def Obligations.TimerInstructions : Prop :=
  EncodedAs 0xF007 0xF0FF (fun w => .ldVxDt (fieldX w)) ∧
  EncodedAs 0xF015 0xF0FF (fun w => .ldDtVx (fieldX w)) ∧
  EncodedAs 0xF018 0xF0FF (fun w => .ldStVx (fieldX w)) ∧
  ∀ (s : State) (x : RegIdx),
    (∃ t, exec (.ldVxDt x) s = .next t ∧ t.reg x = s.dt ∧ (∀ r, r ≠ x → t.reg r = s.reg r) ∧ t = { s with x := t.x }) ∧
    (exec (.ldDtVx x) s = .next { s with dt := s.reg x }) ∧
    (∃ t, exec (.ldStVx x) s = .next t ∧ t.st = s.reg x ∧ (t.soundActive = true ↔ s.reg x ≠ 0) ∧
      t = { s with st := t.st, audio := t.audio })

/-! ### Errors -/

/-- 60_exceptions.md R201: an error is precise. After a fetch error nothing has changed, pc included; after any other
error nothing has changed but pc, which holds ipc + 2 (the record list and the model's own `stepped` apart). -/
def Obligations.ErrorsArePrecise : Prop :=
  ∀ s u t : State, StepIssued s u → step s = .next t → t.faults ≠ u.faults →
    (0x0FFE < u.pc.toNat → t = { u with stepped := true, faults := t.faults }) ∧
    (u.pc.toNat ≤ 0x0FFE → t = { u with stepped := true, pc := u.pc + 2, faults := t.faults })

/-- 60_exceptions.md R202: no transaction removes or changes a record, and a Step appends at most one. -/
def Obligations.RecordsAreNeverRemoved : Prop :=
  ∀ s t : State, step s = .next t → t.faults = s.faults ∨ ∃ r, t.faults = s.faults ++ [r]

/-- 60_exceptions.md R200: a Step completes with no record or appends exactly one, whose error, cause and contents are those
of the table, with the table's codes. -/
def Obligations.EachErrorHasItsCause : Prop :=
  (ErrorKind.unknownOpcode.code = 1 ∧ ErrorKind.stackOverflow.code = 2 ∧ ErrorKind.stackUnderflow.code = 3 ∧
    (∀ a, (ErrorKind.memoryOutOfBounds a).code = 4 ∧ (ErrorKind.memoryOutOfBounds a).detail = some a) ∧
    (∀ k, (ErrorKind.keyIndexOutOfRange k).code = 5 ∧ (ErrorKind.keyIndexOutOfRange k).detail = some k.toNat) ∧
    (∀ a, (ErrorKind.immutableWrite a).code = 6 ∧ (ErrorKind.immutableWrite a).detail = some a)) ∧
  ∀ s u : State, StepIssued s u → ∃ t, step s = .next t ∧
    (t.faults = u.faults ∨ ∃ r, t.faults = u.faults ++ [r] ∧ r.ipc = u.pc ∧
      (r.word = none ∧ 0x0FFE < u.pc.toNat ∧ r.kind = .memoryOutOfBounds (max u.pc.toNat 0x1000) ∨
       r.word = some (u.readWord u.pc.toNat) ∧ u.pc.toNat ≤ 0x0FFE ∧
        match decode u.config.subopDecode (u.readWord u.pc.toNat) with
        | .error _ => r.kind = .unknownOpcode
        | .ok (.call _) => r.kind = .stackOverflow ∧ u.sp = 32
        | .ok .ret => r.kind = .stackUnderflow ∧ u.sp = 0
        | .ok (.skp x) | .ok (.sknp x) => r.kind = .keyIndexOutOfRange (u.reg x) ∧ 15 < (u.reg x).toNat
        | .ok (.drw _ _ n) => r.kind = .memoryOutOfBounds (max u.i.toNat 0x1000) ∧ n ≠ 0 ∧ 0x1000 < u.i.toNat + n
        | .ok (.ldVxMem x) => r.kind = .memoryOutOfBounds (max u.i.toNat 0x1000) ∧ 0x1000 ≤ u.i.toNat + x.val
        | .ok (.ldMemVx x) =>
          (r.kind = .memoryOutOfBounds (max u.i.toNat 0x1000) ∧ 0x1000 ≤ u.i.toNat + x.val) ∨
          (r.kind = .immutableWrite (max u.i.toNat 0x050) ∧ u.config.fontWritable = false ∧
            0x050 ≤ u.i.toNat + x.val ∧ u.i.toNat < 0x0A0)
        | .ok (.ldB _) =>
          (r.kind = .memoryOutOfBounds (max u.i.toNat 0x1000) ∧ 0x1000 ≤ u.i.toNat + 2) ∨
          (r.kind = .immutableWrite (max u.i.toNat 0x050) ∧ u.config.fontWritable = false ∧
            0x050 ≤ u.i.toNat + 2 ∧ u.i.toNat < 0x0A0)
        | .ok _ => False))

/-- 60_exceptions.md R211: a Step after a fetch error raises the same error again; a Step after any other error fetches at
ipc + 2, so the faulting instruction has been skipped. -/
def Obligations.HostResumesAfterError : Prop :=
  ∀ s u t v : State, StepIssued s u → step s = .next t → t.faults ≠ u.faults → StepIssued t v →
    (0x0FFE < u.pc.toNat → ∃ w, step t = .next w ∧ w.pc = u.pc ∧
      ∃ r, t.faults = u.faults ++ [r] ∧ w.faults = t.faults ++ [r]) ∧
    (u.pc.toNat ≤ 0x0FFE → v.pc = u.pc + 2)

/-! ### The host's transactions -/

/-- 60_exceptions.md R220: a Tick decrements each timer by one, saturating at zero and independently, and touches nothing else
(the audio calls of R223 and the host's list apart). -/
def Obligations.TickSaturatesAtZero : Prop :=
  ∀ (s : State) (rest : List Transaction), s.host = .tick :: rest →
    ∃ t, step s = .next t ∧ t.dt.toNat = s.dt.toNat - 1 ∧ t.st.toNat = s.st.toNat - 1 ∧
      t = { s with dt := t.dt, st := t.st, audio := t.audio, host := rest } ∧
      (s.dt = 0 → s.st = 0 → t = { s with host := rest })

/-- 60_exceptions.md R222, R223: over every transaction the audio collaborator is called exactly on the edges of
`sound_active = (ST != 0)`; only an FX18 Step makes it true, and only an FX18 Step with x[X] = 0 or a Tick from ST = 1 makes
it false. -/
def Obligations.AudioCallsFollowSoundEdges : Prop :=
  (∀ s : State, s.soundActive = true ↔ s.st.toNat ≠ 0) ∧
  ∀ s t : State, step s = .next t →
    (s.soundActive = t.soundActive → t.audio = s.audio) ∧
    (s.soundActive = false → t.soundActive = true → t.audio = s.audio ++ [.enable] ∧
      ∃ u x, StepIssued s u ∧ decode s.config.subopDecode (s.readWord s.pc.toNat) = .ok (.ldStVx x) ∧ s.reg x ≠ 0) ∧
    (s.soundActive = true → t.soundActive = false → t.audio = s.audio ++ [.disable] ∧
      ((∃ u x, StepIssued s u ∧ decode s.config.subopDecode (s.readWord s.pc.toNat) = .ok (.ldStVx x) ∧ s.reg x = 0) ∨
       (∃ rest, s.host = .tick :: rest ∧ s.st = 1)))

/-- 70_reset_and_hazards.md R244, R245, R247, R248: a Load of at most 3584 bytes before the first Step copies the image
to 0x200, sets pc to 0x200 and writes nothing else; a longer image, and a Load after the first Step, are refused. -/
def Obligations.LoadCopiesTheImage : Prop :=
  ∀ (s : State) (image : List Byte) (rest : List Transaction), s.host = .load image :: rest →
    (s.stepped = false → image.length ≤ 3584 →
      ∃ t, step s = .next t ∧ t.pc = 0x0200 ∧
        (∀ k (h : k < image.length), t.readByte (0x200 + k) = image[k]) ∧
        (∀ a, a < 0x200 ∨ 0x200 + image.length ≤ a → t.readByte a = s.readByte a) ∧
        t = { s with mem := t.mem, pc := t.pc, host := rest }) ∧
    (s.stepped = false → 3584 < image.length → step s = .refused (.romTooLarge image.length)) ∧
    (s.stepped = true → step s = .refused .loadAfterFirstStep)

/-- 10_state.md R34, R38, 70_reset_and_hazards.md R245: a Seed before the first Step sets the generator, a key change sets the
sampled levels, and an unreadable image stops the machine for good. That a Seed after the first Step is refused is log entry 5's. -/
def Obligations.SeedKeysAndUnreadableImage : Prop :=
  ∀ (s : State) (rest : List Transaction),
    (∀ v, s.host = .seed v :: rest → s.stepped = false → step s = .next { s with prng := v, host := rest }) ∧
    (∀ v, s.host = .seed v :: rest → s.stepped = true → step s = .refused .seedAfterFirstStep) ∧
    (∀ k, s.host = .keys k :: rest → step s = .next { s with keys := k, host := rest }) ∧
    (s.host = .loadUnreadable :: rest → s.stepped = false → step s = .fault .romReadFailure)

/-! ### Creation and the run -/

/-- 70_reset_and_hazards.md R240, 10_state.md R20: creation with any configuration. The fields R20 does not list are the
model's (log entries 1, 2, 5, 6). -/
def Obligations.CreationState : Prop :=
  ∀ c : Config,
    (∀ r, (State.create c).reg r = 0) ∧ (State.create c).pc = 0 ∧ (State.create c).i = 0 ∧ (State.create c).sp = 0 ∧
    (∀ k : Fin 32, (State.create c).stack[k] = 0) ∧ (State.create c).dt = 0 ∧ (State.create c).st = 0 ∧
    (State.create c).prng = c.prngSeed ∧ (State.create c).disp = c.displayInit ∧ (State.create c).faults = [] ∧
    (∀ k : Fin 80, (State.create c).readByte (0x050 + k.val) = c.font[k]) ∧
    (∀ a, a < 0x050 ∨ 0x0A0 ≤ a → (State.create c).readByte a = 0)

/-- 70_reset_and_hazards.md R247: a Step before any Load fetches 0x0000 at address 0 and raises UnknownOpcode, under both
settings of `SUBOP_DECODE`; a Load after the first Step is refused. -/
def Obligations.StepBeforeLoadIsUnknownOpcode : Prop :=
  (∀ c : Config, step (State.create c) = .next { State.create c with
    pc := 2, stepped := true, faults := [{ kind := .unknownOpcode, ipc := 0, word := some 0x0000 }] }) ∧
  (∀ (s : State) image rest, s.host = .load image :: rest → s.stepped = true → step s = .refused .loadAfterFirstStep)

/-- 70_reset_and_hazards.md R250: at an idle end every further Step completes and changes no state, and every Tick only counts the
timers down, so the CORE stays at the idle end. `stepped` is the model's own. -/
def Obligations.IdleEndStaysIdle : Prop :=
  ∀ s u : State, s.idle → StepIssued s u → step s = .next { u with stepped := true }

/-- All transactions: the host's Ticks, key changes and Steps keep an idle end idle (70_reset_and_hazards.md R250). -/
def Obligations.IdleEndSurvivesTicksAndKeys : Prop :=
  ∀ s t : State, s.idle → s.stepped = true → step s = .next t →
    t.idle ∧ t.x = s.x ∧ t.i = s.i ∧ t.sp = s.sp ∧ t.stack = s.stack ∧ t.prng = s.prng ∧ t.mem = s.mem ∧ t.disp = s.disp ∧
    t.dt.toNat ≤ s.dt.toNat ∧ t.st.toNat ≤ s.st.toNat

/-! ### Invariants -/

/-- Every transaction keeps the memory in its canonical form. -/
def Obligations.MemoryStaysCanonical : Prop :=
  ∀ s t : State, s.memCanonical → step s = .next t → t.memCanonical

/-- 10_state.md R26, 40_flow.md R103: every transaction keeps pc at most 0x10FE and every stack entry at most 0x1000, so the
16-bit wrap of pc is never reached. -/
def Obligations.PcStaysBounded : Prop :=
  ∀ s t : State, s.pcBounded → step s = .next t → t.pcBounded

/-- 20_memory.md R69, 10_state.md R40: with `FONT_WRITABLE` false no transaction changes a byte of the font region, in any state
at all. -/
def Obligations.FontIsImmutable : Prop :=
  ∀ s t : State, s.config.fontWritable = false → step s = .next t →
    ∀ a, 0x050 ≤ a → a < 0x0A0 → t.readByte a = s.readByte a

/-- 60_exceptions.md R222, R223: every transaction keeps the audio gate equal to `sound_active`, with no redundant call. -/
def Obligations.AudioGateMatchesSound : Prop :=
  ∀ s t : State, s.soundMatches → step s = .next t → t.soundMatches

/-- 60_exceptions.md R200, R206, R207, R208: every transaction keeps every record one that its error can leave: a word for
every error but a fetch error, no word for a fetch error, which has ipc above 0x0FFE; a reported out-of-range address fits in
16 bits. -/
def Obligations.RecordsStaySound : Prop :=
  ∀ s t : State, s.recordsSound → step s = .next t → t.recordsSound

/-- The invariants hold at creation, for every configuration, keys and schedule of the host. -/
def Obligations.FreshStateMeetsInvariants : Prop :=
  ∀ c keys host, (State.fresh c keys host).memCanonical ∧ (State.fresh c keys host).pcBounded ∧
    (State.fresh c keys host).fontIntact ∧ (State.fresh c keys host).soundMatches ∧ (State.fresh c keys host).recordsSound

/-- Every state a run can reach, for every configuration, program image, key pattern and schedule, meets every invariant. -/
def Obligations.ReachableStatesMeetInvariants : Prop :=
  ∀ s : State, Reachable s → s.memCanonical ∧ s.pcBounded ∧ s.fontIntact ∧ s.soundMatches ∧ s.recordsSound

/-- 10_state.md R21: the configuration is fixed for a whole run. -/
def Obligations.ConfigurationIsFixed : Prop :=
  ∀ s t : State, step s = .next t → t.config = s.config

/-! ### Whole-machine rules over all instructions -/

/-- 10_state.md R32, R27, R28, R36, 20_memory.md R69, 41_alu.md R131: which instructions write I, sp, the stack, DT, ST, prng,
memory and the display; every other instruction leaves them as they were. -/
def Obligations.WritersOfOtherState : Prop :=
  ∀ (i : Instr) (s t : State), exec i s = .next t →
    (t.i ≠ s.i → ∃ x nnn, i ∈ [Instr.ldI nnn, .addI x, .ldF x]) ∧
    (t.sp ≠ s.sp → i = .ret ∨ ∃ nnn, i = .call nnn) ∧
    (t.stack ≠ s.stack → ∃ nnn, i = .call nnn) ∧
    (t.dt ≠ s.dt → ∃ x, i = .ldDtVx x) ∧
    (t.st ≠ s.st → ∃ x, i = .ldStVx x) ∧
    (t.prng ≠ s.prng → ∃ x nn, i = .rnd x nn) ∧
    (t.mem ≠ s.mem → ∃ x, i = .ldB x ∨ i = .ldMemVx x) ∧
    (t.disp ≠ s.disp → i = .cls ∨ ∃ x y n, i = .drw x y n)

/-- 10_state.md R23: the instructions that can change x[15]: the flag writers, and those that name register 15 as a
destination. -/
def Obligations.FlagRegisterWriters : Prop :=
  ∀ (i : Instr) (s t : State), exec i s = .next t → t.reg 15 ≠ s.reg 15 →
    (∃ x y n, i ∈ [Instr.addReg x y, .subReg x y, .subnReg x y, .shrReg x y, .shlReg x y, .drw x y n]) ∨
    (∃ y nn, i ∈ [Instr.ldVxMem 15, .ldImm 15 nn, .addImm 15 nn, .ldReg 15 y, .orReg 15 y, .andReg 15 y, .xorReg 15 y,
      .rnd 15 nn, .ldVxDt 15, .ldVxK 15])

/-- 10_state.md R24, the write side: a register other than x[15] changes only where the table says its instruction writes it. -/
def Obligations.GeneralRegisterWriters : Prop :=
  ∀ (i : Instr) (s t : State) (r : RegIdx), exec i s = .next t → r ≠ 15 → t.reg r ≠ s.reg r →
    (∃ y nn, i ∈ [Instr.ldImm r nn, .rnd r nn, .ldVxDt r, .ldVxK r, .addImm r nn, .orReg r y, .andReg r y, .xorReg r y,
      .ldReg r y, .addReg r y, .subReg r y, .subnReg r y, .shrReg r y, .shlReg r y]) ∨
    (∃ x, i = .ldVxMem x ∧ r ≤ x)

/-- 10_state.md R26: how each kind of instruction leaves pc, from ipc; an error after the fetch leaves ipc + 2, a fetch error
ipc; and pc never exceeds 0x10FE. -/
def Obligations.PcAfterEachKind : Prop :=
  ∀ s u t : State, StepIssued s u → step s = .next t →
    (u.pcBounded → t.pc.toNat ≤ 0x10FE) ∧
    (0x0FFE < u.pc.toNat → t.pc = u.pc) ∧
    (u.pc.toNat ≤ 0x0FFE → t.faults ≠ u.faults → t.pc = u.pc + 2) ∧
    (u.pc.toNat ≤ 0x0FFE → t.faults = u.faults →
      ∃ i, decode u.config.subopDecode (u.readWord u.pc.toNat) = .ok i ∧
        match i with
        | .seImm x nn => t.pc = if u.reg x = nn then u.pc + 4 else u.pc + 2
        | .sneImm x nn => t.pc = if u.reg x ≠ nn then u.pc + 4 else u.pc + 2
        | .seReg x y => t.pc = if u.reg x = u.reg y then u.pc + 4 else u.pc + 2
        | .sneReg x y => t.pc = if u.reg x ≠ u.reg y then u.pc + 4 else u.pc + 2
        | .skp x => t.pc = if u.keys.getLsbD (u.reg x).toNat then u.pc + 4 else u.pc + 2
        | .sknp x => t.pc = if u.keys.getLsbD (u.reg x).toNat then u.pc + 2 else u.pc + 4
        | .jp nnn | .call nnn => t.pc.toNat = nnn.toNat
        | .jpV0 nnn => t.pc.toNat = nnn.toNat + (u.reg 0).toNat
        | .ret => ∃ k : Fin 32, k.val + 1 = u.sp.val ∧ t.pc = u.stack[k]
        | .ldVxK _ => t.pc = if u.keys = 0 then u.pc else u.pc + 2
        | _ => t.pc = u.pc + 2)

/-- 10_state.md R38, 20_memory.md R61: the keypad reaches EX9E, EXA1 and FX0A only: any other instruction does the same
whatever keys are pressed. -/
def Obligations.KeysReachOnlyKeyInstructions : Prop :=
  ∀ (i : Instr) (s t : State) (k : BitVec 16), (∀ x, i ≠ .skp x ∧ i ≠ .sknp x ∧ i ≠ .ldVxK x) → exec i s = .next t →
    exec i { s with keys := k } = .next { t with keys := k }

/-- 10_state.md R30, R33: no instruction reads ST, and only CXNN reads prng. An instruction other than CXNN and FX18 does the
same whatever ST and prng hold; CXNN does the same under any other ST; and FX18 does the same but for the audio calls, which
the edge of sound_active makes (60_exceptions.md R223). -/
def Obligations.SoundTimerAndGeneratorAreNotRead : Prop :=
  ∀ (i : Instr) (s t : State) (v : Byte) (p : BitVec 32), exec i s = .next t →
    ((∀ x nn, i ≠ .rnd x nn) → (∀ x, i ≠ .ldStVx x) →
      exec i { s with st := v, prng := p } = .next { t with st := v, prng := p }) ∧
    (∀ x nn, i = .rnd x nn → exec i { s with st := v } = .next { t with st := v }) ∧
    (∀ x, i = .ldStVx x → ∃ u, exec i { s with st := v, prng := p } = .next u ∧
      u = { t with prng := p, audio := u.audio })
end

