-- ==== Sys2Proof/Laws/Decode.lean ====
section
/-! SUPPORT. The fields of a word as quotients and remainders, and the fields of the words the encoder lays out (30_encoding.md R82, R84). -/

namespace Sys2Proof

theorem append_toNat {m n : Nat} (a : BitVec m) (b : BitVec n) : (a ++ b).toNat = a.toNat * 2 ^ n + b.toNat := by
  rw [BitVec.toNat_append, ← Nat.shiftLeft_add_eq_or_of_lt b.isLt, Nat.shiftLeft_eq]

@[simp] theorem regField_toNat (x : RegIdx) : (regField x).toNat = x.val := rfl

theorem instrWord_toNat (b0 b1 : Byte) : (instrWord b0 b1).toNat = b0.toNat * 256 + b1.toNat := append_toNat b0 b1

theorem wordA_toNat (g : BitVec 4) (nnn : Addr12) : (wordA g nnn).toNat = g.toNat * 4096 + nnn.toNat :=
  append_toNat g nnn

theorem wordXB_toNat (g : BitVec 4) (x : RegIdx) (nn : Byte) :
    (wordXB g x nn).toNat = g.toNat * 4096 + x.val * 256 + nn.toNat := by
  have h : (wordXB g x nn).toNat = (g ++ regField x).toNat * 2 ^ 8 + nn.toNat := append_toNat _ _
  rw [h, append_toNat, regField_toNat]
  omega

theorem wordXYN_toNat (g : BitVec 4) (x y : RegIdx) (n : BitVec 4) :
    (wordXYN g x y n).toNat = g.toNat * 4096 + x.val * 256 + y.val * 16 + n.toNat := by
  have h : (wordXYN g x y n).toNat = (g ++ regField x ++ regField y).toNat * 2 ^ 4 + n.toNat := append_toNat _ _
  rw [h, append_toNat, append_toNat, regField_toNat, regField_toNat]
  omega

theorem fieldG_toNat (w : Word) : (fieldG w).toNat = w.toNat / 4096 := by
  have := w.isLt
  simp only [fieldG, BitVec.extractLsb'_toNat, Nat.shiftRight_eq_div_pow]
  omega

theorem fieldX_val (w : Word) : (fieldX w).val = w.toNat / 256 % 16 := by
  simp only [fieldX, BitVec.val_toFin, BitVec.extractLsb'_toNat, Nat.shiftRight_eq_div_pow]

theorem fieldY_val (w : Word) : (fieldY w).val = w.toNat / 16 % 16 := by
  simp only [fieldY, BitVec.val_toFin, BitVec.extractLsb'_toNat, Nat.shiftRight_eq_div_pow]

theorem fieldN_eq (w : Word) : fieldN w = w.toNat % 16 := by
  simp only [fieldN, BitVec.extractLsb'_toNat, Nat.shiftRight_eq_div_pow]
  omega

theorem fieldNN_toNat (w : Word) : (fieldNN w).toNat = w.toNat % 256 := by
  simp only [fieldNN, BitVec.extractLsb'_toNat, Nat.shiftRight_eq_div_pow]
  omega

theorem fieldNNN_toNat (w : Word) : (fieldNNN w).toNat = w.toNat % 4096 := by
  simp only [fieldNNN, BitVec.extractLsb'_toNat, Nat.shiftRight_eq_div_pow]
  omega

@[simp] theorem fieldG_wordA (g : BitVec 4) (nnn : Addr12) : fieldG (wordA g nnn) = g := by
  apply BitVec.eq_of_toNat_eq; rw [fieldG_toNat, wordA_toNat]; omega

@[simp] theorem fieldNNN_wordA (g : BitVec 4) (nnn : Addr12) : fieldNNN (wordA g nnn) = nnn := by
  apply BitVec.eq_of_toNat_eq; rw [fieldNNN_toNat, wordA_toNat]; omega

@[simp] theorem fieldG_wordXB (g : BitVec 4) (x : RegIdx) (nn : Byte) : fieldG (wordXB g x nn) = g := by
  apply BitVec.eq_of_toNat_eq; rw [fieldG_toNat, wordXB_toNat]; omega

@[simp] theorem fieldX_wordXB (g : BitVec 4) (x : RegIdx) (nn : Byte) : fieldX (wordXB g x nn) = x := by
  apply Fin.ext; rw [fieldX_val, wordXB_toNat]; omega

@[simp] theorem fieldNN_wordXB (g : BitVec 4) (x : RegIdx) (nn : Byte) : fieldNN (wordXB g x nn) = nn := by
  apply BitVec.eq_of_toNat_eq; rw [fieldNN_toNat, wordXB_toNat]; omega

@[simp] theorem fieldG_wordXYN (g : BitVec 4) (x y : RegIdx) (n : BitVec 4) : fieldG (wordXYN g x y n) = g := by
  apply BitVec.eq_of_toNat_eq; rw [fieldG_toNat, wordXYN_toNat]; omega

@[simp] theorem fieldX_wordXYN (g : BitVec 4) (x y : RegIdx) (n : BitVec 4) : fieldX (wordXYN g x y n) = x := by
  apply Fin.ext; rw [fieldX_val, wordXYN_toNat]; omega

@[simp] theorem fieldY_wordXYN (g : BitVec 4) (x y : RegIdx) (n : BitVec 4) : fieldY (wordXYN g x y n) = y := by
  apply Fin.ext; rw [fieldY_val, wordXYN_toNat]; omega

@[simp] theorem fieldN_wordXYN (g : BitVec 4) (x y : RegIdx) (n : BitVec 4) : fieldN (wordXYN g x y n) = n.toNat := by
  rw [fieldN_eq, wordXYN_toNat]; omega

/-- The two bytes of a word in memory give the word back (20_memory.md R65). -/
@[simp] theorem instrWord_wordBytes (w : Word) : instrWord (wordByte0 w) (wordByte1 w) = w := by
  apply BitVec.eq_of_toNat_eq
  have := w.isLt
  rw [instrWord_toNat]
  simp only [wordByte0, wordByte1, BitVec.extractLsb'_toNat, Nat.shiftRight_eq_div_pow]
  omega

/-! ### Fixed digits as fields

What `w &&& mask = pattern` says of the fields, for the masks of the opcode map R86. -/

/-- A mask of the top nibble fixes the group. -/
theorem fieldG_of_mask_F000 {w p : Word} (h : w &&& 0xF000 = p) : fieldG w = fieldG p := by
  subst h
  apply BitVec.eq_of_getLsbD_eq
  intro i hi
  have : i = 0 ∨ i = 1 ∨ i = 2 ∨ i = 3 := by omega
  rcases this with rfl | rfl | rfl | rfl <;> simp [fieldG]

theorem and_mask_trans {w p m : Word} (n : Word) (h : w &&& m = p) : w &&& (m &&& n) = p &&& n := by
  rw [← h, BitVec.and_assoc]

/-- A mask of the low nibble fixes N. -/
theorem fieldN_of_mask_000F {w p : Word} (h : w &&& 0x000F = p) : fieldN w = fieldN p := by
  subst h
  unfold fieldN
  congr 1
  apply BitVec.eq_of_getLsbD_eq
  intro i hi
  have : i = 0 ∨ i = 1 ∨ i = 2 ∨ i = 3 := by omega
  rcases this with rfl | rfl | rfl | rfl <;> simp

/-- A mask of the low byte fixes NN. -/
theorem fieldNN_of_mask_00FF {w p : Word} (h : w &&& 0x00FF = p) : fieldNN w = fieldNN p := by
  subst h
  apply BitVec.eq_of_getLsbD_eq
  intro i hi
  have : i = 0 ∨ i = 1 ∨ i = 2 ∨ i = 3 ∨ i = 4 ∨ i = 5 ∨ i = 6 ∨ i = 7 := by omega
  rcases this with rfl | rfl | rfl | rfl | rfl | rfl | rfl | rfl <;> simp [fieldNN]

/-! ### A word from its fields -/

theorem word_eq_XYN {w : Word} {g n : Nat} (hg : (fieldG w).toNat = g) (hn : fieldN w = n) :
    w = wordXYN (BitVec.ofNat 4 g) (fieldX w) (fieldY w) (BitVec.ofNat 4 n) := by
  subst hg hn
  apply BitVec.eq_of_toNat_eq
  rw [wordXYN_toNat, fieldX_val, fieldY_val, fieldN_eq]
  simp only [fieldG_toNat, BitVec.toNat_ofNat]
  have := w.isLt
  omega

theorem word_eq_XB {w : Word} {g n : Nat} (hg : (fieldG w).toNat = g) (hn : (fieldNN w).toNat = n) :
    w = wordXB (BitVec.ofNat 4 g) (fieldX w) (BitVec.ofNat 8 n) := by
  subst hg hn
  apply BitVec.eq_of_toNat_eq
  rw [wordXB_toNat, fieldX_val]
  simp only [fieldG_toNat, fieldNN_toNat, BitVec.toNat_ofNat]
  have := w.isLt
  omega

theorem word_eq_A {w : Word} {g : Nat} (hg : (fieldG w).toNat = g) :
    w = wordA (BitVec.ofNat 4 g) (fieldNNN w) := by
  subst hg
  apply BitVec.eq_of_toNat_eq
  rw [wordA_toNat]
  simp only [fieldG_toNat, fieldNNN_toNat, BitVec.toNat_ofNat]
  have := w.isLt
  omega

end Sys2Proof
end

