-- ==== Sys2Proof/Laws/State.lean ====
section
/-! SUPPORT. What each update of the state does to each field: true by unfolding, so that no later proof unfolds a record update. -/

namespace Sys2Proof.Machine

variable (s : State)

/-! ### setReg -/

@[simp] theorem State.setReg_x (r : RegIdx) (v : Byte) : (s.setReg r v).x = s.x.set r v := rfl
@[simp] theorem State.setReg_pc (r : RegIdx) (v : Byte) : (s.setReg r v).pc = s.pc := rfl
@[simp] theorem State.setReg_i (r : RegIdx) (v : Byte) : (s.setReg r v).i = s.i := rfl
@[simp] theorem State.setReg_sp (r : RegIdx) (v : Byte) : (s.setReg r v).sp = s.sp := rfl
@[simp] theorem State.setReg_stack (r : RegIdx) (v : Byte) : (s.setReg r v).stack = s.stack := rfl
@[simp] theorem State.setReg_dt (r : RegIdx) (v : Byte) : (s.setReg r v).dt = s.dt := rfl
@[simp] theorem State.setReg_st (r : RegIdx) (v : Byte) : (s.setReg r v).st = s.st := rfl
@[simp] theorem State.setReg_prng (r : RegIdx) (v : Byte) : (s.setReg r v).prng = s.prng := rfl
@[simp] theorem State.setReg_mem (r : RegIdx) (v : Byte) : (s.setReg r v).mem = s.mem := rfl
@[simp] theorem State.setReg_disp (r : RegIdx) (v : Byte) : (s.setReg r v).disp = s.disp := rfl
@[simp] theorem State.setReg_faults (r : RegIdx) (v : Byte) : (s.setReg r v).faults = s.faults := rfl
@[simp] theorem State.setReg_config (r : RegIdx) (v : Byte) : (s.setReg r v).config = s.config := rfl
@[simp] theorem State.setReg_keys (r : RegIdx) (v : Byte) : (s.setReg r v).keys = s.keys := rfl
@[simp] theorem State.setReg_stepped (r : RegIdx) (v : Byte) : (s.setReg r v).stepped = s.stepped := rfl
@[simp] theorem State.setReg_audio (r : RegIdx) (v : Byte) : (s.setReg r v).audio = s.audio := rfl
@[simp] theorem State.setReg_host (r : RegIdx) (v : Byte) : (s.setReg r v).host = s.host := rfl

/-! ### setRegFlag -/

@[simp] theorem State.setRegFlag_x (r : RegIdx) (v : Byte) (f : Bool) : (s.setRegFlag r v f).x = (s.x.set r v).set flagReg (flagByte f) := rfl
@[simp] theorem State.setRegFlag_pc (r : RegIdx) (v : Byte) (f : Bool) : (s.setRegFlag r v f).pc = s.pc := rfl
@[simp] theorem State.setRegFlag_i (r : RegIdx) (v : Byte) (f : Bool) : (s.setRegFlag r v f).i = s.i := rfl
@[simp] theorem State.setRegFlag_sp (r : RegIdx) (v : Byte) (f : Bool) : (s.setRegFlag r v f).sp = s.sp := rfl
@[simp] theorem State.setRegFlag_stack (r : RegIdx) (v : Byte) (f : Bool) : (s.setRegFlag r v f).stack = s.stack := rfl
@[simp] theorem State.setRegFlag_dt (r : RegIdx) (v : Byte) (f : Bool) : (s.setRegFlag r v f).dt = s.dt := rfl
@[simp] theorem State.setRegFlag_st (r : RegIdx) (v : Byte) (f : Bool) : (s.setRegFlag r v f).st = s.st := rfl
@[simp] theorem State.setRegFlag_prng (r : RegIdx) (v : Byte) (f : Bool) : (s.setRegFlag r v f).prng = s.prng := rfl
@[simp] theorem State.setRegFlag_mem (r : RegIdx) (v : Byte) (f : Bool) : (s.setRegFlag r v f).mem = s.mem := rfl
@[simp] theorem State.setRegFlag_disp (r : RegIdx) (v : Byte) (f : Bool) : (s.setRegFlag r v f).disp = s.disp := rfl
@[simp] theorem State.setRegFlag_faults (r : RegIdx) (v : Byte) (f : Bool) : (s.setRegFlag r v f).faults = s.faults := rfl
@[simp] theorem State.setRegFlag_config (r : RegIdx) (v : Byte) (f : Bool) : (s.setRegFlag r v f).config = s.config := rfl
@[simp] theorem State.setRegFlag_keys (r : RegIdx) (v : Byte) (f : Bool) : (s.setRegFlag r v f).keys = s.keys := rfl
@[simp] theorem State.setRegFlag_stepped (r : RegIdx) (v : Byte) (f : Bool) : (s.setRegFlag r v f).stepped = s.stepped := rfl
@[simp] theorem State.setRegFlag_audio (r : RegIdx) (v : Byte) (f : Bool) : (s.setRegFlag r v f).audio = s.audio := rfl
@[simp] theorem State.setRegFlag_host (r : RegIdx) (v : Byte) (f : Bool) : (s.setRegFlag r v f).host = s.host := rfl

/-! ### setPc -/

@[simp] theorem State.setPc_x (v : Word) : (s.setPc v).x = s.x := rfl
@[simp] theorem State.setPc_pc (v : Word) : (s.setPc v).pc = v := rfl
@[simp] theorem State.setPc_i (v : Word) : (s.setPc v).i = s.i := rfl
@[simp] theorem State.setPc_sp (v : Word) : (s.setPc v).sp = s.sp := rfl
@[simp] theorem State.setPc_stack (v : Word) : (s.setPc v).stack = s.stack := rfl
@[simp] theorem State.setPc_dt (v : Word) : (s.setPc v).dt = s.dt := rfl
@[simp] theorem State.setPc_st (v : Word) : (s.setPc v).st = s.st := rfl
@[simp] theorem State.setPc_prng (v : Word) : (s.setPc v).prng = s.prng := rfl
@[simp] theorem State.setPc_mem (v : Word) : (s.setPc v).mem = s.mem := rfl
@[simp] theorem State.setPc_disp (v : Word) : (s.setPc v).disp = s.disp := rfl
@[simp] theorem State.setPc_faults (v : Word) : (s.setPc v).faults = s.faults := rfl
@[simp] theorem State.setPc_config (v : Word) : (s.setPc v).config = s.config := rfl
@[simp] theorem State.setPc_keys (v : Word) : (s.setPc v).keys = s.keys := rfl
@[simp] theorem State.setPc_stepped (v : Word) : (s.setPc v).stepped = s.stepped := rfl
@[simp] theorem State.setPc_audio (v : Word) : (s.setPc v).audio = s.audio := rfl
@[simp] theorem State.setPc_host (v : Word) : (s.setPc v).host = s.host := rfl

/-! ### setI -/

@[simp] theorem State.setI_x (v : Word) : (s.setI v).x = s.x := rfl
@[simp] theorem State.setI_pc (v : Word) : (s.setI v).pc = s.pc := rfl
@[simp] theorem State.setI_i (v : Word) : (s.setI v).i = v := rfl
@[simp] theorem State.setI_sp (v : Word) : (s.setI v).sp = s.sp := rfl
@[simp] theorem State.setI_stack (v : Word) : (s.setI v).stack = s.stack := rfl
@[simp] theorem State.setI_dt (v : Word) : (s.setI v).dt = s.dt := rfl
@[simp] theorem State.setI_st (v : Word) : (s.setI v).st = s.st := rfl
@[simp] theorem State.setI_prng (v : Word) : (s.setI v).prng = s.prng := rfl
@[simp] theorem State.setI_mem (v : Word) : (s.setI v).mem = s.mem := rfl
@[simp] theorem State.setI_disp (v : Word) : (s.setI v).disp = s.disp := rfl
@[simp] theorem State.setI_faults (v : Word) : (s.setI v).faults = s.faults := rfl
@[simp] theorem State.setI_config (v : Word) : (s.setI v).config = s.config := rfl
@[simp] theorem State.setI_keys (v : Word) : (s.setI v).keys = s.keys := rfl
@[simp] theorem State.setI_stepped (v : Word) : (s.setI v).stepped = s.stepped := rfl
@[simp] theorem State.setI_audio (v : Word) : (s.setI v).audio = s.audio := rfl
@[simp] theorem State.setI_host (v : Word) : (s.setI v).host = s.host := rfl

/-! ### skip -/

@[simp] theorem State.skip_x : s.skip.x = s.x := rfl
@[simp] theorem State.skip_pc : s.skip.pc = s.pc + 2 := rfl
@[simp] theorem State.skip_i : s.skip.i = s.i := rfl
@[simp] theorem State.skip_sp : s.skip.sp = s.sp := rfl
@[simp] theorem State.skip_stack : s.skip.stack = s.stack := rfl
@[simp] theorem State.skip_dt : s.skip.dt = s.dt := rfl
@[simp] theorem State.skip_st : s.skip.st = s.st := rfl
@[simp] theorem State.skip_prng : s.skip.prng = s.prng := rfl
@[simp] theorem State.skip_mem : s.skip.mem = s.mem := rfl
@[simp] theorem State.skip_disp : s.skip.disp = s.disp := rfl
@[simp] theorem State.skip_faults : s.skip.faults = s.faults := rfl
@[simp] theorem State.skip_config : s.skip.config = s.config := rfl
@[simp] theorem State.skip_keys : s.skip.keys = s.keys := rfl
@[simp] theorem State.skip_stepped : s.skip.stepped = s.stepped := rfl
@[simp] theorem State.skip_audio : s.skip.audio = s.audio := rfl
@[simp] theorem State.skip_host : s.skip.host = s.host := rfl

/-! ### advance -/

@[simp] theorem State.advance_x : s.advance.x = s.x := rfl
@[simp] theorem State.advance_pc : s.advance.pc = s.pc + 2 := rfl
@[simp] theorem State.advance_i : s.advance.i = s.i := rfl
@[simp] theorem State.advance_sp : s.advance.sp = s.sp := rfl
@[simp] theorem State.advance_stack : s.advance.stack = s.stack := rfl
@[simp] theorem State.advance_dt : s.advance.dt = s.dt := rfl
@[simp] theorem State.advance_st : s.advance.st = s.st := rfl
@[simp] theorem State.advance_prng : s.advance.prng = s.prng := rfl
@[simp] theorem State.advance_mem : s.advance.mem = s.mem := rfl
@[simp] theorem State.advance_disp : s.advance.disp = s.disp := rfl
@[simp] theorem State.advance_faults : s.advance.faults = s.faults := rfl
@[simp] theorem State.advance_config : s.advance.config = s.config := rfl
@[simp] theorem State.advance_keys : s.advance.keys = s.keys := rfl
@[simp] theorem State.advance_stepped : s.advance.stepped = s.stepped := rfl
@[simp] theorem State.advance_audio : s.advance.audio = s.audio := rfl
@[simp] theorem State.advance_host : s.advance.host = s.host := rfl

/-! ### markStepped -/

@[simp] theorem State.markStepped_x : s.markStepped.x = s.x := rfl
@[simp] theorem State.markStepped_pc : s.markStepped.pc = s.pc := rfl
@[simp] theorem State.markStepped_i : s.markStepped.i = s.i := rfl
@[simp] theorem State.markStepped_sp : s.markStepped.sp = s.sp := rfl
@[simp] theorem State.markStepped_stack : s.markStepped.stack = s.stack := rfl
@[simp] theorem State.markStepped_dt : s.markStepped.dt = s.dt := rfl
@[simp] theorem State.markStepped_st : s.markStepped.st = s.st := rfl
@[simp] theorem State.markStepped_prng : s.markStepped.prng = s.prng := rfl
@[simp] theorem State.markStepped_mem : s.markStepped.mem = s.mem := rfl
@[simp] theorem State.markStepped_disp : s.markStepped.disp = s.disp := rfl
@[simp] theorem State.markStepped_faults : s.markStepped.faults = s.faults := rfl
@[simp] theorem State.markStepped_config : s.markStepped.config = s.config := rfl
@[simp] theorem State.markStepped_keys : s.markStepped.keys = s.keys := rfl
@[simp] theorem State.markStepped_stepped : s.markStepped.stepped = true := rfl
@[simp] theorem State.markStepped_audio : s.markStepped.audio = s.audio := rfl
@[simp] theorem State.markStepped_host : s.markStepped.host = s.host := rfl

/-! ### setDt -/

@[simp] theorem State.setDt_x (v : Byte) : (s.setDt v).x = s.x := rfl
@[simp] theorem State.setDt_pc (v : Byte) : (s.setDt v).pc = s.pc := rfl
@[simp] theorem State.setDt_i (v : Byte) : (s.setDt v).i = s.i := rfl
@[simp] theorem State.setDt_sp (v : Byte) : (s.setDt v).sp = s.sp := rfl
@[simp] theorem State.setDt_stack (v : Byte) : (s.setDt v).stack = s.stack := rfl
@[simp] theorem State.setDt_dt (v : Byte) : (s.setDt v).dt = v := rfl
@[simp] theorem State.setDt_st (v : Byte) : (s.setDt v).st = s.st := rfl
@[simp] theorem State.setDt_prng (v : Byte) : (s.setDt v).prng = s.prng := rfl
@[simp] theorem State.setDt_mem (v : Byte) : (s.setDt v).mem = s.mem := rfl
@[simp] theorem State.setDt_disp (v : Byte) : (s.setDt v).disp = s.disp := rfl
@[simp] theorem State.setDt_faults (v : Byte) : (s.setDt v).faults = s.faults := rfl
@[simp] theorem State.setDt_config (v : Byte) : (s.setDt v).config = s.config := rfl
@[simp] theorem State.setDt_keys (v : Byte) : (s.setDt v).keys = s.keys := rfl
@[simp] theorem State.setDt_stepped (v : Byte) : (s.setDt v).stepped = s.stepped := rfl
@[simp] theorem State.setDt_audio (v : Byte) : (s.setDt v).audio = s.audio := rfl
@[simp] theorem State.setDt_host (v : Byte) : (s.setDt v).host = s.host := rfl

/-! ### setSt -/

@[simp] theorem State.setSt_x (v : Byte) : (s.setSt v).x = s.x := rfl
@[simp] theorem State.setSt_pc (v : Byte) : (s.setSt v).pc = s.pc := rfl
@[simp] theorem State.setSt_i (v : Byte) : (s.setSt v).i = s.i := rfl
@[simp] theorem State.setSt_sp (v : Byte) : (s.setSt v).sp = s.sp := rfl
@[simp] theorem State.setSt_stack (v : Byte) : (s.setSt v).stack = s.stack := rfl
@[simp] theorem State.setSt_dt (v : Byte) : (s.setSt v).dt = s.dt := rfl
@[simp] theorem State.setSt_st (v : Byte) : (s.setSt v).st = v := rfl
@[simp] theorem State.setSt_prng (v : Byte) : (s.setSt v).prng = s.prng := rfl
@[simp] theorem State.setSt_mem (v : Byte) : (s.setSt v).mem = s.mem := rfl
@[simp] theorem State.setSt_disp (v : Byte) : (s.setSt v).disp = s.disp := rfl
@[simp] theorem State.setSt_faults (v : Byte) : (s.setSt v).faults = s.faults := rfl
@[simp] theorem State.setSt_config (v : Byte) : (s.setSt v).config = s.config := rfl
@[simp] theorem State.setSt_keys (v : Byte) : (s.setSt v).keys = s.keys := rfl
@[simp] theorem State.setSt_stepped (v : Byte) : (s.setSt v).stepped = s.stepped := rfl
@[simp] theorem State.setSt_audio (v : Byte) : (s.setSt v).audio = s.audio ++ audioEdge s.st v := rfl
@[simp] theorem State.setSt_host (v : Byte) : (s.setSt v).host = s.host := rfl

/-! ### tick -/

@[simp] theorem State.tick_x : s.tick.x = s.x := rfl
@[simp] theorem State.tick_pc : s.tick.pc = s.pc := rfl
@[simp] theorem State.tick_i : s.tick.i = s.i := rfl
@[simp] theorem State.tick_sp : s.tick.sp = s.sp := rfl
@[simp] theorem State.tick_stack : s.tick.stack = s.stack := rfl
@[simp] theorem State.tick_dt : s.tick.dt = countDown s.dt := rfl
@[simp] theorem State.tick_st : s.tick.st = countDown s.st := rfl
@[simp] theorem State.tick_prng : s.tick.prng = s.prng := rfl
@[simp] theorem State.tick_mem : s.tick.mem = s.mem := rfl
@[simp] theorem State.tick_disp : s.tick.disp = s.disp := rfl
@[simp] theorem State.tick_faults : s.tick.faults = s.faults := rfl
@[simp] theorem State.tick_config : s.tick.config = s.config := rfl
@[simp] theorem State.tick_keys : s.tick.keys = s.keys := rfl
@[simp] theorem State.tick_stepped : s.tick.stepped = s.stepped := rfl
@[simp] theorem State.tick_audio : s.tick.audio = s.audio ++ audioEdge s.st (countDown s.st) := rfl
@[simp] theorem State.tick_host : s.tick.host = s.host := rfl

/-! ### storeBytes -/

@[simp] theorem State.storeBytes_x (a : Nat) (vs : List Byte) : (s.storeBytes a vs).x = s.x := rfl
@[simp] theorem State.storeBytes_pc (a : Nat) (vs : List Byte) : (s.storeBytes a vs).pc = s.pc := rfl
@[simp] theorem State.storeBytes_i (a : Nat) (vs : List Byte) : (s.storeBytes a vs).i = s.i := rfl
@[simp] theorem State.storeBytes_sp (a : Nat) (vs : List Byte) : (s.storeBytes a vs).sp = s.sp := rfl
@[simp] theorem State.storeBytes_stack (a : Nat) (vs : List Byte) : (s.storeBytes a vs).stack = s.stack := rfl
@[simp] theorem State.storeBytes_dt (a : Nat) (vs : List Byte) : (s.storeBytes a vs).dt = s.dt := rfl
@[simp] theorem State.storeBytes_st (a : Nat) (vs : List Byte) : (s.storeBytes a vs).st = s.st := rfl
@[simp] theorem State.storeBytes_prng (a : Nat) (vs : List Byte) : (s.storeBytes a vs).prng = s.prng := rfl
@[simp] theorem State.storeBytes_mem (a : Nat) (vs : List Byte) : (s.storeBytes a vs).mem = Memory.writeList s.config s.mem a vs := rfl
@[simp] theorem State.storeBytes_disp (a : Nat) (vs : List Byte) : (s.storeBytes a vs).disp = s.disp := rfl
@[simp] theorem State.storeBytes_faults (a : Nat) (vs : List Byte) : (s.storeBytes a vs).faults = s.faults := rfl
@[simp] theorem State.storeBytes_config (a : Nat) (vs : List Byte) : (s.storeBytes a vs).config = s.config := rfl
@[simp] theorem State.storeBytes_keys (a : Nat) (vs : List Byte) : (s.storeBytes a vs).keys = s.keys := rfl
@[simp] theorem State.storeBytes_stepped (a : Nat) (vs : List Byte) : (s.storeBytes a vs).stepped = s.stepped := rfl
@[simp] theorem State.storeBytes_audio (a : Nat) (vs : List Byte) : (s.storeBytes a vs).audio = s.audio := rfl
@[simp] theorem State.storeBytes_host (a : Nat) (vs : List Byte) : (s.storeBytes a vs).host = s.host := rfl

/-! ### loaded -/

@[simp] theorem State.loaded_x (image : List Byte) : (s.loaded image).x = s.x := rfl
@[simp] theorem State.loaded_pc (image : List Byte) : (s.loaded image).pc = 0x200 := rfl
@[simp] theorem State.loaded_i (image : List Byte) : (s.loaded image).i = s.i := rfl
@[simp] theorem State.loaded_sp (image : List Byte) : (s.loaded image).sp = s.sp := rfl
@[simp] theorem State.loaded_stack (image : List Byte) : (s.loaded image).stack = s.stack := rfl
@[simp] theorem State.loaded_dt (image : List Byte) : (s.loaded image).dt = s.dt := rfl
@[simp] theorem State.loaded_st (image : List Byte) : (s.loaded image).st = s.st := rfl
@[simp] theorem State.loaded_prng (image : List Byte) : (s.loaded image).prng = s.prng := rfl
@[simp] theorem State.loaded_mem (image : List Byte) : (s.loaded image).mem = Memory.writeList s.config s.mem progBase image := rfl
@[simp] theorem State.loaded_disp (image : List Byte) : (s.loaded image).disp = s.disp := rfl
@[simp] theorem State.loaded_faults (image : List Byte) : (s.loaded image).faults = s.faults := rfl
@[simp] theorem State.loaded_config (image : List Byte) : (s.loaded image).config = s.config := rfl
@[simp] theorem State.loaded_keys (image : List Byte) : (s.loaded image).keys = s.keys := rfl
@[simp] theorem State.loaded_stepped (image : List Byte) : (s.loaded image).stepped = s.stepped := rfl
@[simp] theorem State.loaded_audio (image : List Byte) : (s.loaded image).audio = s.audio := rfl
@[simp] theorem State.loaded_host (image : List Byte) : (s.loaded image).host = s.host := rfl

/-! ### raise -/

@[simp] theorem State.raise_x (e : ErrorKind) : (s.raise e).x = s.x := rfl
@[simp] theorem State.raise_pc (e : ErrorKind) : (s.raise e).pc = s.pc := rfl
@[simp] theorem State.raise_i (e : ErrorKind) : (s.raise e).i = s.i := rfl
@[simp] theorem State.raise_sp (e : ErrorKind) : (s.raise e).sp = s.sp := rfl
@[simp] theorem State.raise_stack (e : ErrorKind) : (s.raise e).stack = s.stack := rfl
@[simp] theorem State.raise_dt (e : ErrorKind) : (s.raise e).dt = s.dt := rfl
@[simp] theorem State.raise_st (e : ErrorKind) : (s.raise e).st = s.st := rfl
@[simp] theorem State.raise_prng (e : ErrorKind) : (s.raise e).prng = s.prng := rfl
@[simp] theorem State.raise_mem (e : ErrorKind) : (s.raise e).mem = s.mem := rfl
@[simp] theorem State.raise_disp (e : ErrorKind) : (s.raise e).disp = s.disp := rfl
@[simp] theorem State.raise_faults (e : ErrorKind) : (s.raise e).faults = s.faults ++ [{ kind := e, ipc := s.ipc, word := some s.currentWord }] := rfl
@[simp] theorem State.raise_config (e : ErrorKind) : (s.raise e).config = s.config := rfl
@[simp] theorem State.raise_keys (e : ErrorKind) : (s.raise e).keys = s.keys := rfl
@[simp] theorem State.raise_stepped (e : ErrorKind) : (s.raise e).stepped = s.stepped := rfl
@[simp] theorem State.raise_audio (e : ErrorKind) : (s.raise e).audio = s.audio := rfl
@[simp] theorem State.raise_host (e : ErrorKind) : (s.raise e).host = s.host := rfl

/-! ### raiseFetch -/

@[simp] theorem State.raiseFetch_x (addr : Nat) : (s.raiseFetch addr).x = s.x := rfl
@[simp] theorem State.raiseFetch_pc (addr : Nat) : (s.raiseFetch addr).pc = s.pc := rfl
@[simp] theorem State.raiseFetch_i (addr : Nat) : (s.raiseFetch addr).i = s.i := rfl
@[simp] theorem State.raiseFetch_sp (addr : Nat) : (s.raiseFetch addr).sp = s.sp := rfl
@[simp] theorem State.raiseFetch_stack (addr : Nat) : (s.raiseFetch addr).stack = s.stack := rfl
@[simp] theorem State.raiseFetch_dt (addr : Nat) : (s.raiseFetch addr).dt = s.dt := rfl
@[simp] theorem State.raiseFetch_st (addr : Nat) : (s.raiseFetch addr).st = s.st := rfl
@[simp] theorem State.raiseFetch_prng (addr : Nat) : (s.raiseFetch addr).prng = s.prng := rfl
@[simp] theorem State.raiseFetch_mem (addr : Nat) : (s.raiseFetch addr).mem = s.mem := rfl
@[simp] theorem State.raiseFetch_disp (addr : Nat) : (s.raiseFetch addr).disp = s.disp := rfl
@[simp] theorem State.raiseFetch_faults (addr : Nat) : (s.raiseFetch addr).faults = s.faults ++ [{ kind := .memoryOutOfBounds addr, ipc := s.pc, word := none }] := rfl
@[simp] theorem State.raiseFetch_config (addr : Nat) : (s.raiseFetch addr).config = s.config := rfl
@[simp] theorem State.raiseFetch_keys (addr : Nat) : (s.raiseFetch addr).keys = s.keys := rfl
@[simp] theorem State.raiseFetch_stepped (addr : Nat) : (s.raiseFetch addr).stepped = s.stepped := rfl
@[simp] theorem State.raiseFetch_audio (addr : Nat) : (s.raiseFetch addr).audio = s.audio := rfl
@[simp] theorem State.raiseFetch_host (addr : Nat) : (s.raiseFetch addr).host = s.host := rfl

/-! ### nextRandom -/

@[simp] theorem State.nextRandom_x : s.nextRandom.2.x = s.x := rfl
@[simp] theorem State.nextRandom_pc : s.nextRandom.2.pc = s.pc := rfl
@[simp] theorem State.nextRandom_i : s.nextRandom.2.i = s.i := rfl
@[simp] theorem State.nextRandom_sp : s.nextRandom.2.sp = s.sp := rfl
@[simp] theorem State.nextRandom_stack : s.nextRandom.2.stack = s.stack := rfl
@[simp] theorem State.nextRandom_dt : s.nextRandom.2.dt = s.dt := rfl
@[simp] theorem State.nextRandom_st : s.nextRandom.2.st = s.st := rfl
@[simp] theorem State.nextRandom_prng : s.nextRandom.2.prng = xorshift s.prng := rfl
@[simp] theorem State.nextRandom_mem : s.nextRandom.2.mem = s.mem := rfl
@[simp] theorem State.nextRandom_disp : s.nextRandom.2.disp = s.disp := rfl
@[simp] theorem State.nextRandom_faults : s.nextRandom.2.faults = s.faults := rfl
@[simp] theorem State.nextRandom_config : s.nextRandom.2.config = s.config := rfl
@[simp] theorem State.nextRandom_keys : s.nextRandom.2.keys = s.keys := rfl
@[simp] theorem State.nextRandom_stepped : s.nextRandom.2.stepped = s.stepped := rfl
@[simp] theorem State.nextRandom_audio : s.nextRandom.2.audio = s.audio := rfl
@[simp] theorem State.nextRandom_host : s.nextRandom.2.host = s.host := rfl

/-! ### skipIf -/

@[simp] theorem State.skipIf_x (c : Bool) : (s.skipIf c).x = s.x := by cases c <;> rfl
@[simp] theorem State.skipIf_pc (c : Bool) : (s.skipIf c).pc = if c then s.pc + 2 else s.pc := by cases c <;> rfl
@[simp] theorem State.skipIf_i (c : Bool) : (s.skipIf c).i = s.i := by cases c <;> rfl
@[simp] theorem State.skipIf_sp (c : Bool) : (s.skipIf c).sp = s.sp := by cases c <;> rfl
@[simp] theorem State.skipIf_stack (c : Bool) : (s.skipIf c).stack = s.stack := by cases c <;> rfl
@[simp] theorem State.skipIf_dt (c : Bool) : (s.skipIf c).dt = s.dt := by cases c <;> rfl
@[simp] theorem State.skipIf_st (c : Bool) : (s.skipIf c).st = s.st := by cases c <;> rfl
@[simp] theorem State.skipIf_prng (c : Bool) : (s.skipIf c).prng = s.prng := by cases c <;> rfl
@[simp] theorem State.skipIf_mem (c : Bool) : (s.skipIf c).mem = s.mem := by cases c <;> rfl
@[simp] theorem State.skipIf_disp (c : Bool) : (s.skipIf c).disp = s.disp := by cases c <;> rfl
@[simp] theorem State.skipIf_faults (c : Bool) : (s.skipIf c).faults = s.faults := by cases c <;> rfl
@[simp] theorem State.skipIf_config (c : Bool) : (s.skipIf c).config = s.config := by cases c <;> rfl
@[simp] theorem State.skipIf_keys (c : Bool) : (s.skipIf c).keys = s.keys := by cases c <;> rfl
@[simp] theorem State.skipIf_stepped (c : Bool) : (s.skipIf c).stepped = s.stepped := by cases c <;> rfl
@[simp] theorem State.skipIf_audio (c : Bool) : (s.skipIf c).audio = s.audio := by cases c <;> rfl
@[simp] theorem State.skipIf_host (c : Bool) : (s.skipIf c).host = s.host := by cases c <;> rfl

end Sys2Proof.Machine
end

