-- ==== Sys2Proof/Laws/Memory.lean ====
section
/-! SUPPORT. The memory operations: a read after a write, and that every write keeps the canonical form. -/

namespace Sys2Proof.Machine

variable (c : Config)

@[simp] theorem Memory.read_nil (a : Nat) : Memory.read c [] a = creationByte c a := rfl

theorem Memory.read_insert (m : Memory) (a b : Nat) (v : Byte) :
    Memory.read c (Memory.insert m a v) b = if a = b then v else Memory.read c m b := by
  induction m with
  | nil => simp only [Memory.insert, Memory.read]
  | cons e rest ih =>
    obtain ⟨k, w⟩ := e
    by_cases hlt : a < k
    · simp [Memory.insert, hlt, Memory.read]
    · by_cases heq : a = k
      · subst heq
        by_cases hb : a = b <;> simp [Memory.insert, Memory.read, hb]
      · by_cases hb : k = b
        · subst hb
          simp [Memory.insert, hlt, heq, Memory.read]
        · simp [Memory.insert, hlt, heq, Memory.read, hb, ih]

theorem Memory.read_erase (m : Memory) (a b : Nat) :
    Memory.read c (Memory.erase m a) b = if a = b then creationByte c b else Memory.read c m b := by
  induction m with
  | nil => simp [Memory.erase, Memory.read]
  | cons e rest ih =>
    obtain ⟨k, w⟩ := e
    by_cases hk : k = a
    · subst hk
      simp only [Memory.erase, if_true, ih, Memory.read]
      split <;> rfl
    · by_cases hb : k = b
      · subst hb
        simp [Memory.erase, hk, Memory.read, Ne.symm hk]
      · simp [Memory.erase, hk, Memory.read, hb, ih]

/-- A read after a write: the value written at its address, every other address as before (20_memory.md R62). -/
theorem Memory.read_write (m : Memory) (a b : Nat) (v : Byte) :
    Memory.read c (Memory.write c m a v) b = if a = b then v else Memory.read c m b := by
  unfold Memory.write
  split
  · rename_i h
    rw [Memory.read_erase]
    split
    · rename_i hab; rw [← hab, h]
    · rfl
  · exact Memory.read_insert c m a b v

/-- A read after the stores of an instruction. -/
theorem Memory.read_writeList (vs : List Byte) (m : Memory) (a b : Nat) :
    Memory.read c (Memory.writeList c m a vs) b =
      if h : a ≤ b ∧ b < a + vs.length then vs[b - a]'(by omega) else Memory.read c m b := by
  induction vs generalizing m a with
  | nil =>
    have h : ¬(a ≤ b ∧ b < a + ([] : List Byte).length) := by simp
    rw [dif_neg h, Memory.writeList]
  | cons v vs ih =>
    rw [Memory.writeList, ih, Memory.read_write]
    by_cases hab : a = b
    · subst hab; simp
    · by_cases h : a + 1 ≤ b ∧ b < a + 1 + vs.length
      · have h' : a ≤ b ∧ b < a + (v :: vs).length := by simp; omega
        have hi : b - a = b - (a + 1) + 1 := by omega
        simp only [dif_pos h, dif_pos h', hi, List.getElem_cons_succ]
      · have h' : ¬(a ≤ b ∧ b < a + (v :: vs).length) := by simp; omega
        rw [dif_neg h, dif_neg h', if_neg hab]

theorem Memory.wfFrom_mono {lo lo' : Nat} (h : lo' ≤ lo) :
    ∀ m : Memory, Memory.wfFrom c lo m = true → Memory.wfFrom c lo' m = true
  | [], _ => rfl
  | (a, v) :: rest, hm => by
    simp only [Memory.wfFrom, Bool.and_eq_true, decide_eq_true_eq] at hm ⊢
    exact ⟨⟨⟨by omega, hm.1.1.2⟩, hm.1.2⟩, hm.2⟩

theorem Memory.wfFrom_erase (a : Nat) :
    ∀ (m : Memory) (lo : Nat), Memory.wfFrom c lo m = true → Memory.wfFrom c lo (Memory.erase m a) = true
  | [], _, _ => rfl
  | (k, w) :: rest, lo, hm => by
    simp only [Memory.wfFrom, Bool.and_eq_true, decide_eq_true_eq] at hm
    have ih := Memory.wfFrom_erase a rest (k + 1) hm.2
    by_cases hk : k = a
    · simp only [Memory.erase, hk, if_true]
      exact Memory.wfFrom_mono c (by omega) _ (hk ▸ ih)
    · simp only [Memory.erase, hk, if_false, Memory.wfFrom, Bool.and_eq_true, decide_eq_true_eq]
      exact ⟨hm.1, ih⟩

theorem Memory.wfFrom_insert {a : Nat} {v : Byte} (ha : a < memSize) (hv : v ≠ creationByte c a) :
    ∀ (m : Memory) (lo : Nat), lo ≤ a → Memory.wfFrom c lo m = true → Memory.wfFrom c lo (Memory.insert m a v) = true
  | [], lo, hlo, _ => by simp [Memory.insert, Memory.wfFrom, hlo, ha, hv]
  | (k, w) :: rest, lo, hlo, hm => by
    have hm' := hm
    simp only [Memory.wfFrom, Bool.and_eq_true, decide_eq_true_eq] at hm'
    by_cases hlt : a < k
    · simp only [Memory.insert, hlt, if_true, Memory.wfFrom, Bool.and_eq_true, decide_eq_true_eq, bne_iff_ne]
      exact ⟨⟨⟨hlo, ha⟩, hv⟩, ⟨⟨by omega, hm'.1.1.2⟩, by simpa using hm'.1.2⟩, hm'.2⟩
    · by_cases heq : a = k
      · simp only [Memory.insert, heq, if_true, if_false, lt_irrefl, Memory.wfFrom, Bool.and_eq_true,
          decide_eq_true_eq, bne_iff_ne]
        exact ⟨⟨⟨by omega, heq ▸ ha⟩, heq ▸ hv⟩, hm'.2⟩
      · simp only [Memory.insert, hlt, heq, if_false, Memory.wfFrom, Bool.and_eq_true, decide_eq_true_eq]
        exact ⟨hm'.1, Memory.wfFrom_insert ha hv rest (k + 1) (by omega) hm'.2⟩

/-- A write inside the memory keeps the canonical form. -/
theorem Memory.wf_write {m : Memory} {a : Nat} (v : Byte) (ha : a < memSize) (hm : Memory.wf c m = true) :
    Memory.wf c (Memory.write c m a v) = true := by
  unfold Memory.write
  split
  · exact Memory.wfFrom_erase c a m 0 hm
  · rename_i hv
    exact Memory.wfFrom_insert c ha hv m 0 (Nat.zero_le a) hm

/-- The stores of an instruction, all inside the memory, keep the canonical form. -/
theorem Memory.wf_writeList (vs : List Byte) {m : Memory} {a : Nat} (ha : a + vs.length ≤ memSize)
    (hm : Memory.wf c m = true) : Memory.wf c (Memory.writeList c m a vs) = true := by
  induction vs generalizing m a with
  | nil => exact hm
  | cons v vs ih =>
    simp only [List.length_cons] at ha
    exact ih (by omega) (Memory.wf_write c v (by omega) hm)

theorem Memory.wf_nil : Memory.wf c [] = true := rfl

/-- Reset's memory has the canonical form. -/
theorem State.reset_mem_wf : Memory.wf State.reset.config State.reset.mem = true := rfl

/-- What a store does to each byte of memory, said once (20_memory.md R62). -/
theorem State.readByte_storeBytes (s : State) (vs : List Byte) (a b : Nat) :
    (s.storeBytes a vs).readByte b =
      if h : a ≤ b ∧ b < a + vs.length then vs[b - a]'(by omega) else s.readByte b :=
  Memory.read_writeList s.config vs s.mem a b

end Sys2Proof.Machine
end

