-- ==== Sys2Proof/Laws/Ops.lean ====
section
/-! SUPPORT. One lemma per shared operation: what it can do. -/

namespace Sys2Proof.Machine

open Host (Outcome)

/-! ### Address checks -/

/-- No address of the range satisfies `p`. -/
theorem lowestWhere_eq_none {p : Nat → Bool} {a n : Nat} :
    lowestWhere p a n = none ↔ ∀ b, a ≤ b → b < a + n → p b = false := by
  simp only [lowestWhere, List.find?_eq_none, List.mem_range'_1, Bool.not_eq_true]
  exact ⟨fun h b h1 h2 => h b ⟨h1, h2⟩, fun h b hb => h b hb.1 hb.2⟩

/-- The address found is the lowest of the range that satisfies `p`. -/
theorem lowestWhere_eq_some {p : Nat → Bool} {a n b : Nat} :
    lowestWhere p a n = some b ↔
      a ≤ b ∧ b < a + n ∧ p b = true ∧ ∀ k, a ≤ k → k < b → p k = false := by
  induction n generalizing a with
  | zero =>
    simp only [lowestWhere, List.range'_zero, List.find?_nil, Nat.add_zero, reduceCtorEq, false_iff]
    omega
  | succ n ih =>
    rw [lowestWhere, List.range'_succ, List.find?_cons]
    by_cases hp : p a = true
    · simp only [hp, Option.some.injEq]
      constructor
      · rintro rfl
        exact ⟨le_refl _, by omega, hp, fun k h1 h2 => by omega⟩
      · rintro ⟨h1, -, -, h4⟩
        by_contra hne
        have := h4 a (le_refl _) (by omega)
        simp [hp] at this
    · have hp' : p a = false := by simpa using hp
      simp only [hp']
      have := ih (a := a + 1)
      rw [lowestWhere] at this
      rw [this]
      constructor
      · rintro ⟨h1, h2, h3, h4⟩
        refine ⟨by omega, by omega, h3, fun k hk1 hk2 => ?_⟩
        by_cases hka : k = a
        · rw [hka]; exact hp'
        · exact h4 k (by omega) hk2
      · rintro ⟨h1, h2, h3, h4⟩
        have hab : a ≠ b := by rintro rfl; simp [hp'] at h3
        exact ⟨by omega, by omega, h3, fun k hk1 hk2 => h4 k (by omega) hk2⟩

@[simp] theorem outOfSpace_iff {a : Nat} : outOfSpace a = true ↔ 0x1000 ≤ a := decide_eq_true_iff

theorem outOfSpace_eq_false {a : Nat} : outOfSpace a = false ↔ a < 0x1000 := by
  rw [← Bool.not_eq_true, outOfSpace_iff, Nat.not_le]

@[simp] theorem inFont_iff {a : Nat} : inFont a = true ↔ 0x050 ≤ a ∧ a < 0x0A0 := by
  rw [inFont, Bool.and_eq_true]
  exact and_congr decide_eq_true_iff decide_eq_true_iff

/-- The bounds check passes exactly when the access lies inside the memory (20_memory.md R63). -/
theorem State.checkBounds_eq_none {s : State} {n : Nat} :
    s.checkBounds n = none ↔ n = 0 ∨ s.i.toNat + n ≤ 0x1000 := by
  simp only [State.checkBounds, Option.map_eq_none_iff, lowestWhere_eq_none, outOfSpace_eq_false]
  constructor
  · intro h
    by_cases hn : n = 0
    · exact .inl hn
    · have := h (s.i.toNat + n - 1) (by omega) (by omega)
      exact .inr (by omega)
  · rintro (rfl | h) b h1 h2 <;> omega

/-- The address a failed bounds check reports (20_memory.md R63). -/
theorem State.checkBounds_eq_some {s : State} {n : Nat} {e : ErrorKind} :
    s.checkBounds n = some e ↔
      n ≠ 0 ∧ 0x1000 < s.i.toNat + n ∧ e = .memoryOutOfBounds (max s.i.toNat 0x1000) := by
  simp only [State.checkBounds, Option.map_eq_some_iff, lowestWhere_eq_some, outOfSpace_iff, outOfSpace_eq_false]
  constructor
  · rintro ⟨b, ⟨h1, h2, h3, h4⟩, rfl⟩
    refine ⟨by omega, by omega, ?_⟩
    congr 1
    by_cases hb : s.i.toNat = b
    · omega
    · have := h4 (b - 1) (by omega) (by omega)
      omega
  · rintro ⟨h1, h2, rfl⟩
    exact ⟨max s.i.toNat 0x1000, ⟨by omega, by omega, by omega, fun k _ _ => by omega⟩, rfl⟩

/-- The font check passes exactly when the font is writable or the range misses it (20_memory.md R69). -/
theorem State.checkFont_eq_none {s : State} {n : Nat} :
    s.checkFont n = none ↔
      s.config.fontWritable = true ∨ n = 0 ∨ s.i.toNat + n ≤ 0x050 ∨ 0x0A0 ≤ s.i.toNat := by
  unfold State.checkFont
  by_cases hw : s.config.fontWritable = true
  · simp [hw]
  · simp only [hw, Bool.false_eq_true, if_false, Option.map_eq_none_iff, lowestWhere_eq_none, false_or]
    constructor
    · intro h
      by_contra hc
      have := h (max s.i.toNat 0x050) (by omega) (by omega)
      rw [← Bool.not_eq_true, inFont_iff] at this
      omega
    · intro h b h1 h2
      rw [← Bool.not_eq_true, inFont_iff]
      omega

/-- The checks of a store pass exactly when both do. -/
theorem State.checkStore_eq_none {s : State} {n : Nat} :
    s.checkStore n = none ↔ s.checkBounds n = none ∧ s.checkFont n = none := by
  unfold State.checkStore
  cases s.checkBounds n <;> simp

/-- The fetch check passes exactly when `pc ≤ 0x0FFE` (20_memory.md R64). -/
theorem State.checkFetch_eq_none {s : State} : s.checkFetch = none ↔ s.pc.toNat ≤ 0x0FFE := by
  simp only [State.checkFetch, lowestWhere_eq_none, outOfSpace_eq_false]
  constructor
  · intro h
    have := h (s.pc.toNat + 1) (by omega) (by omega)
    omega
  · intro h b _ _
    omega

/-- The address a fetch error reports: pc when it is itself out of range, else 0x1000 (20_memory.md R64). -/
theorem State.checkFetch_eq_some {s : State} {a : Nat} :
    s.checkFetch = some a ↔ 0x0FFF ≤ s.pc.toNat ∧ a = max s.pc.toNat 0x1000 := by
  simp only [State.checkFetch, lowestWhere_eq_some, outOfSpace_iff, outOfSpace_eq_false]
  constructor
  · rintro ⟨h1, h2, h3, h4⟩
    refine ⟨by omega, ?_⟩
    by_cases ha : s.pc.toNat = a
    · omega
    · have := h4 (a - 1) (by omega) (by omega)
      omega
  · rintro ⟨h1, rfl⟩
    exact ⟨by omega, by omega, by omega, fun k _ _ => by omega⟩

/-! ### Outcomes -/

/-- An instruction with a check answers a next state, one of two. -/
theorem State.guarded_cases {s t u : State} {c : Option ErrorKind} (h : s.guarded c t = .next u) :
    (∃ e, c = some e ∧ u = s.raise e) ∨ (c = none ∧ u = t) := by
  cases c with
  | some e => exact .inl ⟨e, rfl, by simpa [State.guarded] using h.symm⟩
  | none => exact .inr ⟨rfl, by simpa [State.guarded] using h.symm⟩

@[simp] theorem State.guarded_none (s t : State) : s.guarded none t = .next t := rfl

@[simp] theorem State.guarded_some (s t : State) (e : ErrorKind) : s.guarded (some e) t = .next (s.raise e) := rfl

/-! ### Registers -/

@[simp] theorem State.reg_setReg_self (s : State) (r : RegIdx) (v : Byte) : (s.setReg r v).reg r = v := by
  simp [State.reg]

theorem State.reg_setReg (s : State) (r q : RegIdx) (v : Byte) :
    (s.setReg r v).reg q = if r = q then v else s.reg q := by
  simp only [State.reg, State.setReg_x, Fin.getElem_fin, Vector.getElem_set, Fin.val_inj]

/-- The flag survives in register 15, the result in every other destination (41_alu.md R136). -/
theorem State.reg_setRegFlag (s : State) (r q : RegIdx) (v : Byte) (f : Bool) :
    (s.setRegFlag r v f).reg q = if q = 15 then flagByte f else if r = q then v else s.reg q := by
  rw [State.setRegFlag, State.reg_setReg, State.reg_setReg]
  simp only [flagReg, eq_comm]

/-- What FX65 leaves in each register (42_index_memory.md R155). -/
theorem State.loadedRegs_getElem (s : State) (n : Nat) (r : RegIdx) :
    (s.loadedRegs n)[r] = if r.val < n then s.readByte (s.i.toNat + r.val) else s.reg r := by
  induction n with
  | zero => simp [State.loadedRegs, State.reg]
  | succ n ih =>
    simp only [Fin.getElem_fin] at ih
    simp only [State.loadedRegs, Fin.getElem_fin, Vector.getElem_setIfInBounds, ih]
    by_cases h : n = r.val
    · simp [h]
    · have : (r.val < n + 1) = (r.val < n) := by simp; omega
      simp [h, this]

@[simp] theorem State.firstRegs_length (s : State) (x : RegIdx) : (s.firstRegs (blockLength x)).length = x.val + 1 := by
  simp [State.firstRegs, blockLength]

theorem State.firstRegs_getElem (s : State) (n k : Nat) (h : k < (s.firstRegs n).length) (hk : k < 16) :
    (s.firstRegs n)[k] = s.reg ⟨k, hk⟩ := by
  simp [State.firstRegs, State.reg]

/-! ### Skips -/

/-- A conditional skip changes pc only (40_flow.md R100). -/
theorem State.skipIf_eq (s : State) (c : Bool) : s.skipIf c = { s with pc := if c then s.pc + 2 else s.pc } := by
  cases c <;> rfl

/-! ### The call stack -/

theorem State.push_full {s : State} (h : s.sp = 32) (v : Word) : s.push v = none := by
  simp [State.push, h]

theorem State.push_eq_some {s t : State} {v : Word} :
    s.push v = some t ↔ ∃ h : s.sp.val < 32,
      t = { s with stack := s.stack.set s.sp.val v, sp := ⟨s.sp.val + 1, by omega⟩ } := by
  unfold State.push
  by_cases h : s.sp.val < 32
  · simp [h, eq_comm]
  · simp [h]

theorem State.push_eq_none {s : State} {v : Word} : s.push v = none ↔ s.sp = 32 := by
  have := s.sp.isLt
  simp only [State.push, Fin.ext_iff]
  split <;> rename_i h
  · simp only [reduceCtorEq, false_iff, Fin.isValue]; exact fun hc => by simp at hc; omega
  · simp only [true_iff]; show s.sp.val = 32; omega

theorem State.pop_eq_some {s t : State} {v : Word} :
    s.pop = some (v, t) ↔ ∃ h : 0 < s.sp.val,
      v = s.stack[s.sp.val - 1] ∧ t = { s with sp := ⟨s.sp.val - 1, by omega⟩ } := by
  unfold State.pop
  by_cases h : 0 < s.sp.val
  · simp [h, eq_comm]
  · simp [h]

theorem State.pop_eq_none {s : State} : s.pop = none ↔ s.sp = 0 := by
  simp only [State.pop, Fin.ext_iff]
  split <;> rename_i h
  · simp only [reduceCtorEq, false_iff]; exact fun hc => by simp at hc; omega
  · simp only [true_iff]; show s.sp.val = 0; omega

/-! ### The keypad -/

/-- The key found is the lowest pressed one (44_input_timers.md R182). -/
theorem State.firstKey_eq_some {s : State} {k : Nat} :
    s.firstKey = some k ↔ k < 16 ∧ s.key k = true ∧ ∀ j < k, s.key j = false := by
  have := lowestWhere_eq_some (p := s.key) (a := 0) (n := 16) (b := k)
  rw [lowestWhere] at this
  rw [State.firstKey, this]
  simp

theorem State.firstKey_eq_none {s : State} : s.firstKey = none ↔ ∀ k < 16, s.key k = false := by
  have := lowestWhere_eq_none (p := s.key) (a := 0) (n := 16)
  rw [lowestWhere] at this
  rw [State.firstKey, this]
  simp

end Sys2Proof.Machine
end

