-- ==== Sys2Proof/Laws/PerInstr.lean ====
section
/-! SUPPORT. A statement about every instruction, one lemma per constructor: its word lies in its row of the opcode map (30_encoding.md R86). -/

namespace Sys2Proof

theorem and_ones4 (v : BitVec 4) : v &&& 15#4 = v := BitVec.and_allOnes

theorem and_ones8 (v : BitVec 8) : v &&& 255#8 = v := BitVec.and_allOnes

theorem wordXYN_mask_F000 (g : BitVec 4) (x y : RegIdx) (n : BitVec 4) :
    wordXYN g x y n &&& 0xF000 = wordXYN g 0 0 0 := by
  have h : (g ++ regField x ++ regField y ++ n) &&& (0xF#4 ++ 0#4 ++ 0#4 ++ 0#4) = g ++ 0#4 ++ 0#4 ++ 0#4 := by
    simp only [BitVec.and_append, and_ones4, BitVec.and_zero]
  exact h

theorem wordXYN_mask_F00F (g : BitVec 4) (x y : RegIdx) (n : BitVec 4) :
    wordXYN g x y n &&& 0xF00F = wordXYN g 0 0 n := by
  have h : (g ++ regField x ++ regField y ++ n) &&& (0xF#4 ++ 0#4 ++ 0#4 ++ 0xF#4) = g ++ 0#4 ++ 0#4 ++ n := by
    simp only [BitVec.and_append, and_ones4, BitVec.and_zero]
  exact h

theorem wordXB_mask_F000 (g : BitVec 4) (x : RegIdx) (nn : Byte) : wordXB g x nn &&& 0xF000 = wordXB g 0 0 := by
  have h : (g ++ regField x ++ nn) &&& (0xF#4 ++ 0#4 ++ 0#8) = g ++ 0#4 ++ 0#8 := by
    simp only [BitVec.and_append, and_ones4, BitVec.and_zero]
  exact h

theorem wordXB_mask_F0FF (g : BitVec 4) (x : RegIdx) (nn : Byte) : wordXB g x nn &&& 0xF0FF = wordXB g 0 nn := by
  have h : (g ++ regField x ++ nn) &&& (0xF#4 ++ 0#4 ++ 0xFF#8) = g ++ 0#4 ++ nn := by
    simp only [BitVec.and_append, and_ones4, and_ones8, BitVec.and_zero]
  exact h

theorem wordA_mask_F000 (g : BitVec 4) (nnn : Addr12) : wordA g nnn &&& 0xF000 = wordA g 0 := by
  have h : (g ++ nnn) &&& (0xF#4 ++ 0#12) = g ++ 0#12 := by
    simp only [BitVec.and_append, and_ones4, BitVec.and_zero]
  exact h

end Sys2Proof

namespace Sys2Proof.Laws.FitsRow

/-- The encoded word matches the fixed digits of the instruction's row, under each setting of `SUBOP_DECODE`. -/
def Statement (i : Instr) : Prop := ∀ mode, encode i &&& i.row.maskOf mode = i.row.pattern

theorem cls : Statement .cls := by intro mode; cases mode <;> rfl
theorem ret : Statement .ret := by intro mode; cases mode <;> rfl
theorem jp (nnn : Addr12) : Statement (.jp nnn) := by
  intro mode; cases mode <;> exact wordA_mask_F000 _ _
theorem call (nnn : Addr12) : Statement (.call nnn) := by
  intro mode; cases mode <;> exact wordA_mask_F000 _ _
theorem seImm (x : RegIdx) (nn : Byte) : Statement (.seImm x nn) := by
  intro mode; cases mode <;> exact wordXB_mask_F000 _ _ _
theorem sneImm (x : RegIdx) (nn : Byte) : Statement (.sneImm x nn) := by
  intro mode; cases mode <;> exact wordXB_mask_F000 _ _ _
theorem seReg (x y : RegIdx) : Statement (.seReg x y) := by
  intro mode
  cases mode
  · exact wordXYN_mask_F00F _ _ _ _
  · exact wordXYN_mask_F000 _ _ _ _
theorem sneReg (x y : RegIdx) : Statement (.sneReg x y) := by
  intro mode
  cases mode
  · exact wordXYN_mask_F00F _ _ _ _
  · exact wordXYN_mask_F000 _ _ _ _
theorem ldImm (x : RegIdx) (nn : Byte) : Statement (.ldImm x nn) := by
  intro mode; cases mode <;> exact wordXB_mask_F000 _ _ _
theorem addImm (x : RegIdx) (nn : Byte) : Statement (.addImm x nn) := by
  intro mode; cases mode <;> exact wordXB_mask_F000 _ _ _
theorem ldReg (x y : RegIdx) : Statement (.ldReg x y) := by
  intro mode; cases mode <;> exact wordXYN_mask_F00F _ _ _ _
theorem orReg (x y : RegIdx) : Statement (.orReg x y) := by
  intro mode; cases mode <;> exact wordXYN_mask_F00F _ _ _ _
theorem andReg (x y : RegIdx) : Statement (.andReg x y) := by
  intro mode; cases mode <;> exact wordXYN_mask_F00F _ _ _ _
theorem xorReg (x y : RegIdx) : Statement (.xorReg x y) := by
  intro mode; cases mode <;> exact wordXYN_mask_F00F _ _ _ _
theorem addReg (x y : RegIdx) : Statement (.addReg x y) := by
  intro mode; cases mode <;> exact wordXYN_mask_F00F _ _ _ _
theorem subReg (x y : RegIdx) : Statement (.subReg x y) := by
  intro mode; cases mode <;> exact wordXYN_mask_F00F _ _ _ _
theorem subnReg (x y : RegIdx) : Statement (.subnReg x y) := by
  intro mode; cases mode <;> exact wordXYN_mask_F00F _ _ _ _
theorem shrReg (x y : RegIdx) : Statement (.shrReg x y) := by
  intro mode; cases mode <;> exact wordXYN_mask_F00F _ _ _ _
theorem shlReg (x y : RegIdx) : Statement (.shlReg x y) := by
  intro mode; cases mode <;> exact wordXYN_mask_F00F _ _ _ _
theorem ldI (nnn : Addr12) : Statement (.ldI nnn) := by
  intro mode; cases mode <;> exact wordA_mask_F000 _ _
theorem jpV0 (nnn : Addr12) : Statement (.jpV0 nnn) := by
  intro mode; cases mode <;> exact wordA_mask_F000 _ _
theorem rnd (x : RegIdx) (nn : Byte) : Statement (.rnd x nn) := by
  intro mode; cases mode <;> exact wordXB_mask_F000 _ _ _
theorem drw (x y : RegIdx) (n : Nat) : Statement (.drw x y n) := by
  intro mode; cases mode <;> exact wordXYN_mask_F000 _ _ _ _
theorem skp (x : RegIdx) : Statement (.skp x) := by
  intro mode; cases mode <;> exact wordXB_mask_F0FF _ _ _
theorem sknp (x : RegIdx) : Statement (.sknp x) := by
  intro mode; cases mode <;> exact wordXB_mask_F0FF _ _ _
theorem ldVxDt (x : RegIdx) : Statement (.ldVxDt x) := by
  intro mode; cases mode <;> exact wordXB_mask_F0FF _ _ _
theorem ldDtVx (x : RegIdx) : Statement (.ldDtVx x) := by
  intro mode; cases mode <;> exact wordXB_mask_F0FF _ _ _
theorem ldStVx (x : RegIdx) : Statement (.ldStVx x) := by
  intro mode; cases mode <;> exact wordXB_mask_F0FF _ _ _
theorem addI (x : RegIdx) : Statement (.addI x) := by
  intro mode; cases mode <;> exact wordXB_mask_F0FF _ _ _
theorem ldVxK (x : RegIdx) : Statement (.ldVxK x) := by
  intro mode; cases mode <;> exact wordXB_mask_F0FF _ _ _
theorem ldF (x : RegIdx) : Statement (.ldF x) := by
  intro mode; cases mode <;> exact wordXB_mask_F0FF _ _ _
theorem ldB (x : RegIdx) : Statement (.ldB x) := by
  intro mode; cases mode <;> exact wordXB_mask_F0FF _ _ _
theorem ldMemVx (x : RegIdx) : Statement (.ldMemVx x) := by
  intro mode; cases mode <;> exact wordXB_mask_F0FF _ _ _
theorem ldVxMem (x : RegIdx) : Statement (.ldVxMem x) := by
  intro mode; cases mode <;> exact wordXB_mask_F0FF _ _ _

end Sys2Proof.Laws.FitsRow
end

