-- ==== Sys2Proof/Laws/Screen.lean ====
section
/-! SUPPORT. What drawing a sprite does to each pixel and to the collision (43_display.md R171 to R173). -/

namespace Sys2Proof.Machine

@[simp] theorem dispGet_dispClear (x : Fin 64) (y : Fin 32) : dispGet dispClear x y = false := by
  simp [dispGet, dispClear, Display.blank]

theorem dispGet_dispSet (d : Display) (x px : Fin 64) (y py : Fin 32) (b : Bool) :
    dispGet (dispSet d x y b) px py = if x = px ∧ y = py then b else dispGet d px py := by
  simp only [dispGet, dispSet, Fin.getElem_fin, Vector.getElem_set, Fin.val_inj]
  by_cases hy : y = py
  · subst hy
    by_cases hx : x = px <;> simp [hx, Fin.val_inj]
  · simp [hy]

theorem drawBit_get (cv : Canvas) (x y : Nat) (bit : Bool) (px : Fin 64) (py : Fin 32) :
    dispGet (drawBit cv x y bit).1 px py =
      (dispGet cv.1 px py ^^ (bit && decide (px.val = x ∧ py.val = y))) := by
  unfold drawBit
  split
  · rename_i h
    simp only [dispGet_dispSet, Fin.ext_iff, h.1, Bool.true_and]
    by_cases hp : px.val = x ∧ py.val = y
    · obtain ⟨rfl, rfl⟩ := hp
      simp
    · have : ¬(x = px.val ∧ y = py.val) := fun hc => hp ⟨hc.1.symm, hc.2.symm⟩
      simp [hp, this]
  · rename_i h
    have hx := px.isLt
    have hy := py.isLt
    by_cases hb : bit = true
    · have : ¬(px.val = x ∧ py.val = y) := fun hc => h ⟨hb, by omega, by omega⟩
      simp [this]
    · simp [hb]

theorem drawBit_collision (cv : Canvas) (x y : Nat) (bit : Bool) :
    (drawBit cv x y bit).2 = true ↔
      cv.2 = true ∨ ∃ (px : Fin 64) (py : Fin 32), px.val = x ∧ py.val = y ∧ bit = true ∧ dispGet cv.1 px py = true := by
  unfold drawBit
  split
  · rename_i h
    simp only [Bool.or_eq_true]
    refine or_congr Iff.rfl ⟨fun hg => ⟨⟨x, h.2.1⟩, ⟨y, h.2.2⟩, rfl, rfl, h.1, hg⟩, ?_⟩
    rintro ⟨px, py, rfl, rfl, -, hg⟩
    exact hg
  · rename_i h
    refine ⟨.inl, ?_⟩
    rintro (hc | ⟨px, py, rfl, rfl, hb, -⟩)
    · exact hc
    · exact absurd ⟨hb, px.isLt, py.isLt⟩ h

/-- Whether column `px` is one of the first `n` of a row at column `x0` and its bit of the row is 1: bit 7 is column `x0`. -/
def rowBit (x0 : Nat) (row : Byte) (n px : Nat) : Bool :=
  decide (x0 ≤ px ∧ px < x0 + n) && row.getLsbD (7 - (px - x0))

theorem drawCols_get (cv : Canvas) (x0 y : Nat) (row : Byte) (n : Nat) (px : Fin 64) (py : Fin 32) :
    dispGet (drawCols cv x0 y row n).1 px py =
      (dispGet cv.1 px py ^^ (decide (py.val = y) && rowBit x0 row n px.val)) := by
  induction n with
  | zero =>
    have : ¬(x0 ≤ px.val ∧ px.val < x0 + 0) := by omega
    rw [drawCols, rowBit, decide_eq_false this]
    simp
  | succ n ih =>
    rw [drawCols, drawBit_get, ih, rowBit, rowBit]
    by_cases hx : px.val = x0 + n
    · simp [hx, Bool.and_comm]
    · have h : (x0 ≤ px.val ∧ px.val < x0 + (n + 1)) ↔ (x0 ≤ px.val ∧ px.val < x0 + n) := by omega
      simp [hx, h]

theorem drawCols_collision (cv : Canvas) (x0 y : Nat) (row : Byte) (n : Nat) :
    (drawCols cv x0 y row n).2 = true ↔
      cv.2 = true ∨ ∃ (px : Fin 64) (py : Fin 32), py.val = y ∧ rowBit x0 row n px.val = true ∧ dispGet cv.1 px py = true := by
  induction n with
  | zero =>
    refine ⟨.inl, ?_⟩
    rintro (h | ⟨px, py, -, hr, -⟩)
    · exact h
    · have : ¬(x0 ≤ px.val ∧ px.val < x0 + 0) := by omega
      rw [rowBit, decide_eq_false this] at hr
      simp at hr
  | succ n ih =>
    rw [drawCols, drawBit_collision, ih, or_assoc]
    refine or_congr Iff.rfl ⟨?_, ?_⟩
    · rintro (⟨px, py, hy, hr, hg⟩ | ⟨px, py, hx, hy, hb, hg⟩)
      · refine ⟨px, py, hy, ?_, hg⟩
        simp only [rowBit, Bool.and_eq_true, decide_eq_true_eq] at hr ⊢
        exact ⟨by omega, hr.2⟩
      · rw [drawCols_get] at hg
        have h1 : ¬(x0 ≤ px.val ∧ px.val < x0 + n) := by omega
        refine ⟨px, py, hy, ?_, by simpa [rowBit, h1] using hg⟩
        have h2 : px.val - x0 = n := by omega
        simp only [rowBit, Bool.and_eq_true, decide_eq_true_eq, h2]
        exact ⟨by omega, hb⟩
    · rintro ⟨px, py, hy, hr, hg⟩
      simp only [rowBit, Bool.and_eq_true, decide_eq_true_eq] at hr
      by_cases hx : px.val = x0 + n
      · refine .inr ⟨px, py, hx, hy, ?_, ?_⟩
        · have h2 : px.val - x0 = n := by omega
          rw [h2] at hr
          exact hr.2
        · have h1 : ¬(x0 ≤ px.val ∧ px.val < x0 + n) := by omega
          rw [drawCols_get]
          simp [rowBit, h1, hg]
      · refine .inl ⟨px, py, hy, ?_, hg⟩
        simp only [rowBit, Bool.and_eq_true, decide_eq_true_eq]
        exact ⟨by omega, hr.2⟩

/-- Whether a sprite with the rows `rows` at (x0, y0) has a 1 bit at the pixel (px, py) (43_display.md R175). -/
def spriteBit (x0 y0 : Nat) (rows : List Byte) (px py : Nat) : Bool :=
  match rows with
  | [] => false
  | row :: rest => (decide (py = y0) && rowBit x0 row 8 px) || spriteBit x0 (y0 + 1) rest px py

theorem spriteBit_below (x0 px py : Nat) (rows : List Byte) (y0 : Nat) (h : py < y0) :
    spriteBit x0 y0 rows px py = false := by
  induction rows generalizing y0 with
  | nil => rfl
  | cons row rest ih =>
    have : py ≠ y0 := by omega
    simp [spriteBit, this, ih (y0 + 1) (by omega)]

/-- The sprite's bit at a pixel, by row and column number. -/
theorem spriteBit_eq (x0 px py : Nat) (rows : List Byte) (y0 : Nat) :
    spriteBit x0 y0 rows px py =
      if h : y0 ≤ py ∧ py < y0 + rows.length then rowBit x0 (rows[py - y0]'(by omega)) 8 px else false := by
  induction rows generalizing y0 with
  | nil =>
    have : ¬(y0 ≤ py ∧ py < y0 + ([] : List Byte).length) := by simp
    rw [dif_neg this, spriteBit]
  | cons row rest ih =>
    rw [spriteBit]
    by_cases hy : py = y0
    · subst hy
      simp [spriteBit_below]
    · rw [ih]
      by_cases h : y0 + 1 ≤ py ∧ py < y0 + 1 + rest.length
      · have h' : y0 ≤ py ∧ py < y0 + (row :: rest).length := by simp; omega
        have hi : py - y0 = py - (y0 + 1) + 1 := by omega
        simp only [dif_pos h, dif_pos h', hi, List.getElem_cons_succ, hy, decide_false, Bool.false_and, Bool.false_or]
      · have h' : ¬(y0 ≤ py ∧ py < y0 + (row :: rest).length) := by simp; omega
        rw [dif_neg h, dif_neg h']
        simp [hy]

/-- Drawing flips exactly the pixels the sprite covers. -/
theorem drawRows_get (rows : List Byte) (cv : Canvas) (x0 y0 : Nat) (px : Fin 64) (py : Fin 32) :
    dispGet (drawRows cv x0 y0 rows).1 px py = (dispGet cv.1 px py ^^ spriteBit x0 y0 rows px.val py.val) := by
  induction rows generalizing cv y0 with
  | nil => simp [drawRows, spriteBit]
  | cons row rest ih =>
    rw [drawRows, ih, drawCols_get, spriteBit]
    by_cases hy : py.val = y0
    · have : spriteBit x0 (y0 + 1) rest px.val py.val = false := spriteBit_below _ _ _ _ _ (by omega)
      simp [hy] at this ⊢
      simp [this]
    · simp [hy]

/-- Drawing collides exactly when a covered pixel was on before. -/
theorem drawRows_collision (rows : List Byte) (cv : Canvas) (x0 y0 : Nat) :
    (drawRows cv x0 y0 rows).2 = true ↔
      cv.2 = true ∨ ∃ (px : Fin 64) (py : Fin 32), spriteBit x0 y0 rows px.val py.val = true ∧ dispGet cv.1 px py = true := by
  induction rows generalizing cv y0 with
  | nil => simp [drawRows, spriteBit]
  | cons row rest ih =>
    rw [drawRows, ih, drawCols_collision, or_assoc]
    refine or_congr Iff.rfl ⟨?_, ?_⟩
    · rintro (⟨px, py, hy, hr, hg⟩ | ⟨px, py, hb, hg⟩)
      · exact ⟨px, py, by simp [spriteBit, hy, hr], hg⟩
      · refine ⟨px, py, by simp [spriteBit, hb], ?_⟩
        rw [drawCols_get] at hg
        have hy : py.val ≠ y0 := fun hc => by
          rw [spriteBit_below _ _ _ _ _ (by omega)] at hb
          exact Bool.false_ne_true hb
        simpa [hy] using hg
    · rintro ⟨px, py, hb, hg⟩
      simp only [spriteBit, Bool.or_eq_true, Bool.and_eq_true, decide_eq_true_eq] at hb
      rcases hb with ⟨hy, hr⟩ | hb
      · exact .inl ⟨px, py, hy, hr, hg⟩
      · refine .inr ⟨px, py, hb, ?_⟩
        have hy : py.val ≠ y0 := fun hc => by
          rw [spriteBit_below _ _ _ _ _ (by omega)] at hb
          exact Bool.false_ne_true hb
        rw [drawCols_get]
        simpa [hy] using hg

end Sys2Proof.Machine
end

