-- ==== Sys2Proof/Laws/Step.lean ====
section
/-! SUPPORT. What exec, a Step of the engine and a transaction of the host can do, said once. -/

namespace Sys2Proof.Machine

open Host (Outcome)

/-! ### exec -/

/-- An instruction with a check answers a next state. -/
theorem State.guarded_completes (s t : State) (c : Option ErrorKind) : ∃ u, s.guarded c t = .next u := by
  cases c <;> exact ⟨_, rfl⟩

theorem execRet_cases (s : State) :
    (∃ h : 0 < s.sp.val, execRet s = .next { s with sp := ⟨s.sp.val - 1, by omega⟩, pc := s.stack[s.sp.val - 1] }) ∨
    (s.sp.val = 0 ∧ execRet s = .next (s.raise .stackUnderflow)) := by
  by_cases h : 0 < s.sp.val
  · exact .inl ⟨h, by simp [execRet, State.pop, h, State.setPc]⟩
  · exact .inr ⟨by omega, by simp [execRet, State.pop, h]⟩

theorem execCall_cases (nnn : Addr12) (s : State) :
    (∃ h : s.sp.val < 32, execCall nnn s = .next { s with
      stack := s.stack.set s.sp.val s.pc, sp := ⟨s.sp.val + 1, by omega⟩, pc := addrWord nnn }) ∨
    (s.sp.val = 32 ∧ execCall nnn s = .next (s.raise .stackOverflow)) := by
  have := s.sp.isLt
  by_cases h : s.sp.val < 32
  · exact .inl ⟨h, by simp [execCall, State.push, h, State.setPc]⟩
  · exact .inr ⟨by omega, by simp [execCall, State.push, h]⟩

theorem execLdVxK_cases (x : RegIdx) (s : State) :
    (∃ k, s.firstKey = some k ∧ execLdVxK x s = .next (s.setReg x (BitVec.ofNat 8 k))) ∨
    (s.firstKey = none ∧ execLdVxK x s = .next (s.setPc (s.pc - 2))) := by
  unfold execLdVxK
  cases h : s.firstKey with
  | some k => exact .inl ⟨k, rfl, rfl⟩
  | none => exact .inr ⟨rfl, rfl⟩

/-- Every instruction answers a next state: none ends in a fault or a refusal (60_exceptions.md R200). -/
theorem exec_completes (i : Instr) (s : State) : ∃ t, exec i s = .next t := by
  cases i with
  | ret => rcases execRet_cases s with ⟨_, h⟩ | ⟨_, h⟩ <;> exact ⟨_, h⟩
  | call nnn => rcases execCall_cases nnn s with ⟨_, h⟩ | ⟨_, h⟩ <;> exact ⟨_, h⟩
  | ldVxK x => rcases execLdVxK_cases x s with ⟨_, _, h⟩ | ⟨_, h⟩ <;> exact ⟨_, h⟩
  | drw x y n => exact s.guarded_completes _ _
  | skp x => exact s.guarded_completes _ _
  | sknp x => exact s.guarded_completes _ _
  | ldB x => exact s.guarded_completes _ _
  | ldMemVx x => exact s.guarded_completes _ _
  | ldVxMem x => exact s.guarded_completes _ _
  | _ => exact ⟨_, rfl⟩

/-- The fields no instruction changes. -/
structure State.SameOutside (s t : State) : Prop where
  config : t.config = s.config
  keys : t.keys = s.keys
  stepped : t.stepped = s.stepped
  host : t.host = s.host

theorem State.sameOutside_refl (s : State) : s.SameOutside s := ⟨rfl, rfl, rfl, rfl⟩

theorem State.guarded_sameOutside {s t u : State} {c : Option ErrorKind} (ht : s.SameOutside t)
    (h : s.guarded c t = .next u) : s.SameOutside u := by
  rcases State.guarded_cases h with ⟨e, -, rfl⟩ | ⟨-, rfl⟩
  · exact ⟨rfl, rfl, rfl, rfl⟩
  · exact ht

theorem next_inj {s t : State} (h : (Outcome.next s : Outcome State Fault Refusal) = .next t) : t = s := by
  injection h with h; exact h.symm

/-- No instruction changes the configuration, the keys, `stepped` or the host's list (10_state.md R21, R38). -/
theorem exec_sameOutside {i : Instr} {s t : State} (h : exec i s = .next t) : s.SameOutside t := by
  cases i with
  | ret =>
    rcases execRet_cases s with ⟨_, h'⟩ | ⟨_, h'⟩ <;> rw [exec, h'] at h <;> rw [next_inj h] <;> exact ⟨rfl, rfl, rfl, rfl⟩
  | call nnn =>
    rcases execCall_cases nnn s with ⟨_, h'⟩ | ⟨_, h'⟩ <;> rw [exec, h'] at h <;> rw [next_inj h] <;>
      exact ⟨rfl, rfl, rfl, rfl⟩
  | ldVxK x =>
    rcases execLdVxK_cases x s with ⟨_, _, h'⟩ | ⟨_, h'⟩ <;> rw [exec, h'] at h <;> rw [next_inj h] <;>
      exact ⟨rfl, rfl, rfl, rfl⟩
  | skp x => exact State.guarded_sameOutside (by constructor <;> simp) h
  | sknp x => exact State.guarded_sameOutside (by constructor <;> simp) h
  | drw x y n => exact State.guarded_sameOutside (by constructor <;> rfl) h
  | ldB x => exact State.guarded_sameOutside (by constructor <;> rfl) h
  | ldMemVx x => exact State.guarded_sameOutside (by constructor <;> rfl) h
  | ldVxMem x => exact State.guarded_sameOutside (by constructor <;> rfl) h
  | seImm x nn => rw [next_inj h]; constructor <;> simp
  | sneImm x nn => rw [next_inj h]; constructor <;> simp
  | seReg x y => rw [next_inj h]; constructor <;> simp
  | sneReg x y => rw [next_inj h]; constructor <;> simp
  | _ => rw [next_inj h]; exact ⟨rfl, rfl, rfl, rfl⟩

/-- The check an instruction makes before its first write: the error it raises, if any (60_exceptions.md R200, R209). -/
def checkOf (s : State) : Instr → Option ErrorKind
  | .ret => if s.sp.val = 0 then some .stackUnderflow else none
  | .call _ => if s.sp.val = 32 then some .stackOverflow else none
  | .skp x | .sknp x => checkKeyIndex (s.reg x)
  | .drw _ _ n => s.checkBounds n
  | .ldB _ => s.checkStore 3
  | .ldMemVx x => s.checkStore (blockLength x)
  | .ldVxMem x => s.checkBounds (blockLength x)
  | _ => none

/-- An instruction raises the error its check finds, and nothing else changes; with no error the records stay
(60_exceptions.md R201, R202). -/
theorem exec_check {i : Instr} {s t : State} (h : exec i s = .next t) :
    (∃ e, checkOf s i = some e ∧ t = s.raise e) ∨ (checkOf s i = none ∧ t.faults = s.faults) := by
  have hg : ∀ {c : Option ErrorKind} {u : State}, s.guarded c u = .next t → u.faults = s.faults →
      (∃ e, c = some e ∧ t = s.raise e) ∨ (c = none ∧ t.faults = s.faults) := fun h' hu => by
    rcases State.guarded_cases h' with h' | ⟨hc, rfl⟩
    · exact .inl h'
    · exact .inr ⟨hc, hu⟩
  cases i with
  | ret =>
    rcases execRet_cases s with ⟨h0, h'⟩ | ⟨h0, h'⟩ <;> rw [exec, h'] at h <;> rw [next_inj h]
    · exact .inr ⟨if_neg (by omega), rfl⟩
    · exact .inl ⟨_, if_pos h0, rfl⟩
  | call nnn =>
    rcases execCall_cases nnn s with ⟨h0, h'⟩ | ⟨h0, h'⟩ <;> rw [exec, h'] at h <;> rw [next_inj h]
    · exact .inr ⟨if_neg (by omega), rfl⟩
    · exact .inl ⟨_, if_pos h0, rfl⟩
  | ldVxK x =>
    rcases execLdVxK_cases x s with ⟨_, _, h'⟩ | ⟨_, h'⟩ <;> rw [exec, h'] at h <;> rw [next_inj h] <;>
      exact .inr ⟨rfl, rfl⟩
  | skp x => exact hg h (by rw [State.skipIf_eq])
  | sknp x => exact hg h (by rw [State.skipIf_eq])
  | drw x y n => exact hg h rfl
  | ldB x => exact hg h rfl
  | ldMemVx x => exact hg h rfl
  | ldVxMem x => exact hg h rfl
  | seImm x nn => rw [next_inj h, State.skipIf_eq]; exact .inr ⟨rfl, rfl⟩
  | sneImm x nn => rw [next_inj h, State.skipIf_eq]; exact .inr ⟨rfl, rfl⟩
  | seReg x y => rw [next_inj h, State.skipIf_eq]; exact .inr ⟨rfl, rfl⟩
  | sneReg x y => rw [next_inj h, State.skipIf_eq]; exact .inr ⟨rfl, rfl⟩
  | _ => rw [next_inj h]; exact .inr ⟨rfl, rfl⟩

/-! ### A Step of the engine -/

/-- Under a Step, `step` is the engine's Step (10_state.md R35). -/
theorem step_of_stepIssued {s u : State} (h : StepIssued s u) : step s = engineStep u := by
  rcases h with ⟨h, rfl⟩ | ⟨rest, h, rfl⟩ <;> simp only [step, nextTransaction, h, perform]

/-- What a Step of the engine can do (30_encoding.md R80, 60_exceptions.md R209). -/
theorem engineStep_cases (u : State) :
    (0x0FFE < u.pc.toNat ∧ engineStep u = .next (u.markStepped.raiseFetch (max u.pc.toNat 0x1000))) ∨
    (u.pc.toNat ≤ 0x0FFE ∧ ∃ e, decode u.config.subopDecode (u.readWord u.pc.toNat) = .error e ∧
      engineStep u = .next (u.markStepped.advance.raise .unknownOpcode)) ∨
    (u.pc.toNat ≤ 0x0FFE ∧ ∃ i, decode u.config.subopDecode (u.readWord u.pc.toNat) = .ok i ∧
      engineStep u = exec i u.markStepped.advance) := by
  by_cases hp : u.pc.toNat ≤ 0x0FFE
  · have hf := State.checkFetch_eq_none.mpr hp
    cases hd : decode u.config.subopDecode (u.readWord u.pc.toNat) with
    | error e => exact .inr (.inl ⟨hp, e, rfl, by simp only [engineStep, hf, hd]⟩)
    | ok i => exact .inr (.inr ⟨hp, i, rfl, by simp only [engineStep, hf, hd]⟩)
  · have hf : u.checkFetch = some (max u.pc.toNat 0x1000) := State.checkFetch_eq_some.mpr ⟨by omega, rfl⟩
    exact .inl ⟨by omega, by simp only [engineStep, hf]⟩

/-! ### A transaction -/

/-- What a step of the machine that answers a next state can be (10_state.md R35). -/
theorem step_cases {s t : State} (h : step s = .next t) :
    (∃ u, StepIssued s u ∧ engineStep u = .next t) ∨
    (∃ rest, s.host = .tick :: rest ∧ t = State.tick { s with host := rest }) ∨
    (∃ image rest, s.host = .load image :: rest ∧ s.stepped = false ∧ image.length ≤ maxImage ∧
      t = State.loaded { s with host := rest } image) ∨
    (∃ v rest, s.host = .seed v :: rest ∧ s.stepped = false ∧ t = { s with prng := v, host := rest }) ∨
    (∃ k rest, s.host = .keys k :: rest ∧ t = { s with keys := k, host := rest }) := by
  unfold step nextTransaction at h
  split at h
  · rename_i hh
    exact .inl ⟨s, .inl ⟨hh, rfl⟩, h⟩
  · rename_i tr rest hh
    cases tr with
    | step => exact .inl ⟨_, .inr ⟨rest, hh, rfl⟩, h⟩
    | tick => exact .inr (.inl ⟨rest, hh, next_inj h⟩)
    | load image =>
      simp only [perform, doLoad] at h
      split at h
      · cases h
      · rename_i hs
        split at h
        · cases h
        · exact .inr (.inr (.inl ⟨image, rest, hh, by simpa using hs, by omega, next_inj h⟩))
    | loadUnreadable =>
      simp only [perform, doLoadUnreadable] at h
      split at h <;> cases h
    | seed v =>
      simp only [perform, doSeed] at h
      split at h
      · cases h
      · rename_i hs
        exact .inr (.inr (.inr (.inl ⟨v, rest, hh, by simpa using hs, next_inj h⟩)))
    | keys k => exact .inr (.inr (.inr (.inr ⟨k, rest, hh, next_inj h⟩)))

/-! ### The error record -/

/-- `raise` appends the record the statements name. -/
theorem State.raise_eq (s : State) (e : ErrorKind) : s.raise e = { s with faults := s.faults ++ [recordAt s e] } := rfl

end Sys2Proof.Machine
end

