-- ==== Sys2Proof/Tests/Slice0.lean ====
section
/-! SUPPORT. Tests: hand-written words, one-step vectors of spec/95_test_vectors.md, and a witness for the hypotheses of
every statement that has some. Expected values are the spec's. -/

namespace Sys2Proof.Tests

open Sys2Proof Sys2Proof.Machine
open Host (Outcome)

/-! ### Well-formedness -/

/-- Ill-formed: sixteen rows do not fit in N (30_encoding.md R85). -/
theorem test_sixteen_rows_ill_formed : (Instr.drw 0 0 16).wellFormed = false := by decide

theorem test_fifteen_rows_well_formed : (Instr.drw 15 15 15).wellFormed = true := by decide

/-! ### Decoding: words written out bit by bit from the tables R84 and R86 -/

theorem test_words_group_0_to_7 :
    decode .strict 0b0000_0000_1110_0000 = .ok .cls ∧
    decode .strict 0b0000_0000_1110_1110 = .ok .ret ∧
    decode .strict 0b0001_1010_1011_1100 = .ok (.jp 0xABC) ∧
    decode .strict 0b0010_1010_1011_1100 = .ok (.call 0xABC) ∧
    decode .strict 0b0011_0100_0100_0010 = .ok (.seImm 4 0x42) ∧
    decode .strict 0b0100_0010_0000_0001 = .ok (.sneImm 2 0x01) ∧
    decode .strict 0b0101_0011_0100_0000 = .ok (.seReg 3 4) ∧
    decode .strict 0b0110_0001_1010_1011 = .ok (.ldImm 1 0xAB) ∧
    decode .strict 0b0111_0011_0000_0010 = .ok (.addImm 3 0x02) := by decide

theorem test_words_group_8 :
    decode .strict 0b1000_0001_0010_0000 = .ok (.ldReg 1 2) ∧
    decode .strict 0b1000_0001_0010_0001 = .ok (.orReg 1 2) ∧
    decode .strict 0b1000_0001_0010_0010 = .ok (.andReg 1 2) ∧
    decode .strict 0b1000_0001_0010_0011 = .ok (.xorReg 1 2) ∧
    decode .strict 0b1000_0001_0010_0100 = .ok (.addReg 1 2) ∧
    decode .strict 0b1000_0001_0010_0101 = .ok (.subReg 1 2) ∧
    decode .strict 0b1000_0001_0010_0110 = .ok (.shrReg 1 2) ∧
    decode .strict 0b1000_0001_0010_0111 = .ok (.subnReg 1 2) ∧
    decode .strict 0b1000_0001_0010_1110 = .ok (.shlReg 1 2) := by decide

theorem test_words_group_9_to_E :
    decode .strict 0b1001_0011_0100_0000 = .ok (.sneReg 3 4) ∧
    decode .strict 0b1010_0001_0010_0011 = .ok (.ldI 0x123) ∧
    decode .strict 0b1011_0011_0000_0000 = .ok (.jpV0 0x300) ∧
    decode .strict 0b1100_0001_1111_1111 = .ok (.rnd 1 0xFF) ∧
    decode .strict 0b1101_0001_0010_0101 = .ok (.drw 1 2 5) ∧
    decode .strict 0b1110_0101_1001_1110 = .ok (.skp 5) ∧
    decode .strict 0b1110_0101_1010_0001 = .ok (.sknp 5) := by decide

theorem test_words_group_F :
    decode .strict 0b1111_0010_0000_0111 = .ok (.ldVxDt 2) ∧
    decode .strict 0b1111_0011_0000_1010 = .ok (.ldVxK 3) ∧
    decode .strict 0b1111_0010_0001_0101 = .ok (.ldDtVx 2) ∧
    decode .strict 0b1111_0010_0001_1000 = .ok (.ldStVx 2) ∧
    decode .strict 0b1111_0011_0001_1110 = .ok (.addI 3) ∧
    decode .strict 0b1111_0011_0010_1001 = .ok (.ldF 3) ∧
    decode .strict 0b1111_0011_0011_0011 = .ok (.ldB 3) ∧
    decode .strict 0b1111_0011_0101_0101 = .ok (.ldMemVx 3) ∧
    decode .strict 0b1111_0010_0110_0101 = .ok (.ldVxMem 2) := by decide

/-- Vectors D-5, D-6, D-8, D-10, D-12 to D-15: unknown words. -/
theorem test_unknown_words :
    [0x0000, 0x01E0, 0x5121, 0x9AB3, 0x8008, 0xE000, 0xF000, 0xF0FF, 0x00E1].map (decode .strict) =
      [0x0000, 0x01E0, 0x5121, 0x9AB3, 0x8008, 0xE000, 0xF000, 0xF0FF, 0x00E1].map fun w => .error (.unknownOpcode w) := by decide

/-- Vectors D-7, D-9, D-11 to D-15 under loose decode. -/
theorem test_loose_words :
    decode .loose 0x01E0 = .ok .cls ∧ decode .loose 0x5121 = .ok (.seReg 1 2) ∧
    decode .loose 0x9AB3 = .ok (.sneReg 10 11) ∧
    [0x8008, 0xE000, 0xF000, 0xF0FF, 0x00E1, 0x0000].map (decode .loose) =
      [0x8008, 0xE000, 0xF000, 0xF0FF, 0x00E1, 0x0000].map fun w => .error (.unknownOpcode w) := by decide

/-- Vectors E1 and E2: byte order and fields. -/
theorem test_fields :
    instrWord 0x1A 0xBC = 0x1ABC ∧ fieldNNN 0x1ABC = 0xABC ∧ fieldG 0x1ABC = 0x1 ∧ fieldX 0x1ABC = 0xA ∧
    fieldY 0x1ABC = 0xB ∧ fieldN 0x1ABC = 0xC ∧ fieldNN 0x61AB = 0xAB ∧ fieldX 0x61AB = 1 := by decide

theorem test_table_word : decodeTableWord 16 0x8124 = some (.addReg 1 2) ∧ decodeTableWord 16 0x8128 = none := by decide

/-! ### One step -/

/-- Whether an outcome is a next state with the property. -/
def nextIs (o : Outcome State Fault Refusal) (p : State → Bool) : Bool :=
  match o with
  | .next t => p t
  | _ => false

theorem exists_next {o : Outcome State Fault Refusal} {P : State → Prop} [DecidablePred P]
    (h : nextIs o (fun t => decide (P t)) = true) : ∃ t, o = .next t ∧ P t := by
  cases o with
  | next t => exact ⟨t, rfl, of_decide_eq_true h⟩
  | fault f => cases h
  | refused r => cases h

/-- The start state of the vectors: creation with pc = 0x0200. -/
def start : State := { State.reset with pc := 0x200 }

/-- The start state with some registers set. -/
def withRegs (rs : List (RegIdx × Byte)) : State := rs.foldl (fun s r => s.setReg r.1 r.2) start

/-- One step of `s` with the word `w` placed where it fetches. -/
def run (s : State) (w : Nat) (p : State → Bool) : Bool := nextIs (step (s.withFetchWord 16 w)) p

/-- The step raised this error with this word, from ipc = 0x0200. -/
def raised (t : State) (e : ErrorKind) (w : Word) : Bool :=
  t.faults == [{ kind := e, ipc := 0x200, word := some w }] && t.pc == 0x202

/-- The pixels that are on, row by row. -/
def litPixels (t : State) : List (Nat × Nat) :=
  (List.finRange 32).flatMap fun y => ((List.finRange 64).filter fun x => t.disp[y][x]).map fun x => (x.val, y.val)

/-- The start state with the given pixels on. -/
def withPixels (s : State) (ps : List (Fin 64 × Fin 32)) : State :=
  { s with disp := ps.foldl (fun d p => dispSet d p.1 p.2 true) s.disp }

-- Vectors F-1 to F-20 (L2.2).
theorem test_jump : run start 0x1ABC (fun t => t.pc == 0xABC) = true := by decide
theorem test_self_jump : run start 0x1200 (fun t => t.pc == 0x200) = true := by decide
theorem test_call : run { start with sp := 3 } 0x2ABC (fun t => t.stack[3] == 0x202 && t.sp == 4 && t.pc == 0xABC) = true := by
  decide
theorem test_call_overflow :
    run { start with sp := 32 } 0x2ABC (fun t => raised t .stackOverflow 0x2ABC && t.sp == 32) = true := by decide
theorem test_return :
    run { start with sp := 2, stack := (start.stack.set 0 0x222).set 1 0x346 } 0x00EE
      (fun t => t.sp == 1 && t.pc == 0x346 && t.stack[1] == 0x346) = true := by decide
theorem test_return_underflow : run start 0x00EE (fun t => raised t .stackUnderflow 0x00EE && t.sp == 0) = true := by decide
theorem test_indexed_jump :
    run (withRegs [(0, 0x01), (3, 0x55)]) 0xB3FF (fun t => t.pc == 0x400) = true := by decide
theorem test_indexed_jump_past_memory : run (withRegs [(0, 0xFF)]) 0xBFFF (fun t => t.pc == 0x10FE) = true := by decide
theorem test_se_imm : run (withRegs [(10, 7)]) 0x3A07 (fun t => t.pc == 0x204) = true := by decide
theorem test_se_imm_untaken : run (withRegs [(10, 8)]) 0x3A07 (fun t => t.pc == 0x202) = true := by decide
theorem test_sne_imm : run (withRegs [(10, 8)]) 0x4A07 (fun t => t.pc == 0x204) = true := by decide
theorem test_sne_imm_untaken : run (withRegs [(10, 7)]) 0x4A07 (fun t => t.pc == 0x202) = true := by decide
theorem test_se_reg : run (withRegs [(1, 9), (2, 9)]) 0x5120 (fun t => t.pc == 0x204) = true := by decide
theorem test_sne_reg : run (withRegs [(1, 9), (2, 8)]) 0x9120 (fun t => t.pc == 0x204) = true := by decide
theorem test_sne_reg_untaken : run (withRegs [(1, 9), (2, 9)]) 0x9120 (fun t => t.pc == 0x202) = true := by decide

-- Vectors E3 to E7 and A-1 to A-33 (L2.3).
theorem test_load_imm : run start 0x6A5C (fun t => t.reg 10 == 0x5C) = true := by decide
theorem test_add_imm_wraps :
    run (withRegs [(3, 0xFF), (15, 0x77)]) 0x7302 (fun t => t.reg 3 == 1 && t.reg 15 == 0x77) = true := by decide
theorem test_add_imm_on_flag : run (withRegs [(15, 2)]) 0x7FFF (fun t => t.reg 15 == 1) = true := by decide
theorem test_copy : run (withRegs [(2, 0x33), (15, 0x77)]) 0x8120 (fun t => t.reg 1 == 0x33 && t.reg 15 == 0x77) = true := by
  decide
theorem test_or :
    run (withRegs [(1, 0xF0), (2, 0x0F), (15, 0x77)]) 0x8121 (fun t => t.reg 1 == 0xFF && t.reg 15 == 0x77) = true := by decide
theorem test_and :
    run (withRegs [(1, 0xF3), (2, 0x3F), (15, 0x77)]) 0x8122 (fun t => t.reg 1 == 0x33 && t.reg 15 == 0x77) = true := by decide
theorem test_xor :
    run (withRegs [(1, 0xFF), (2, 0x0F), (15, 0x77)]) 0x8123 (fun t => t.reg 1 == 0xF0 && t.reg 15 == 0x77) = true := by decide
theorem test_add_carry : run (withRegs [(1, 250), (2, 10)]) 0x8124 (fun t => t.reg 1 == 4 && t.reg 15 == 1) = true := by decide
theorem test_add_flag_last : run (withRegs [(15, 0xFF), (2, 1)]) 0x8F24 (fun t => t.reg 15 == 1) = true := by decide
theorem test_sub_borrow : run (withRegs [(1, 3), (2, 5)]) 0x8125 (fun t => t.reg 1 == 254 && t.reg 15 == 0) = true := by decide
theorem test_sub_equal_flag_last :
    run (withRegs [(15, 5), (2, 3)]) 0x8F25 (fun t => t.reg 15 == 1) = true := by decide
theorem test_subn : run (withRegs [(1, 3), (2, 5)]) 0x8127 (fun t => t.reg 1 == 2 && t.reg 15 == 1) = true := by decide
theorem test_subn_borrow : run (withRegs [(1, 5), (2, 3)]) 0x8127 (fun t => t.reg 1 == 0xFE && t.reg 15 == 0) = true := by
  decide
theorem test_shr_from_y : run (withRegs [(1, 0xFF), (2, 5)]) 0x8126 (fun t => t.reg 1 == 2 && t.reg 15 == 1) = true := by decide
theorem test_shr_flag_last : run (withRegs [(2, 3)]) 0x8F26 (fun t => t.reg 15 == 1) = true := by decide
theorem test_shl_from_y : run (withRegs [(2, 0x81)]) 0x812E (fun t => t.reg 1 == 2 && t.reg 15 == 1) = true := by decide
theorem test_shl_flag_last : run (withRegs [(2, 0x40)]) 0x8F2E (fun t => t.reg 15 == 0) = true := by decide
theorem test_random : run { start with prng := 4 } 0xC10F (fun t => t.reg 1 == 4 && t.prng == 0x00108084) = true := by decide
theorem test_random_zero_mask :
    run { start with prng := 4 } 0xC100 (fun t => t.reg 1 == 0 && t.prng == 0x00108084) = true := by decide

/-- The generator's states after Seed(4), the first two, and after Seed(1) (95_test_vectors.md, S4). -/
theorem test_xorshift :
    xorshift 4 = 0x00108084 ∧ xorshift 0x00108084 = 0x10011804 ∧ xorshift 0x10011804 = 0x5331b104 ∧
    xorshift 1 = 0x00042021 ∧ xorshift 0x00042021 = 0x04080601 ∧ xorshift 0 = 0 := by decide

-- Vectors M-1 to M-25 (L2.4).
theorem test_load_i : run start 0xA123 (fun t => t.i == 0x123) = true := by decide
theorem test_add_i :
    run { withRegs [(3, 1), (15, 7)] with i := 0xFFF } 0xF31E (fun t => t.i == 0x1000 && t.reg 15 == 7) = true := by decide
theorem test_add_i_wraps : run { withRegs [(3, 1)] with i := 0xFFFF } 0xF31E (fun t => t.i == 0) = true := by decide
theorem test_glyph : run (withRegs [(3, 0xA)]) 0xF329 (fun t => t.i == 0x82) = true := by decide
theorem test_glyph_not_masked : run (withRegs [(3, 0x10)]) 0xF329 (fun t => t.i == 0xA0) = true := by decide
theorem test_digits :
    run { withRegs [(3, 254)] with i := 0x300 } 0xF333
      (fun t => (List.range' 0x2FF 5).map t.readByte == [0, 2, 5, 4, 0] && t.i == 0x300) = true := by decide
theorem test_digits_out_of_range :
    run { withRegs [(3, 123)] with i := 0xFFE } 0xF333
      (fun t => raised t (.memoryOutOfBounds 0x1000) 0xF333 && t.readByte 0xFFE == 0) = true := by decide
theorem test_store_registers :
    run { withRegs [(0, 1), (1, 2), (2, 3), (3, 4), (4, 5)] with i := 0x300 } 0xF355
      (fun t => (List.range' 0x2FF 6).map t.readByte == [0, 1, 2, 3, 4, 0] && t.i == 0x300) = true := by decide
theorem test_store_into_font :
    run { withRegs [(0, 1)] with i := 0x4F } 0xF155
      (fun t => raised t (.immutableWrite 0x50) 0xF155 && t.readByte 0x4F == 0) = true := by decide
theorem test_load_registers :
    run { withRegs [(5, 0x99)] with i := 0x50 } 0xF465
      (fun t => [0, 1, 2, 3, 4, 5].map t.reg == [0xF0, 0x90, 0x90, 0x90, 0xF0, 0x99]) = true := by decide
theorem test_load_registers_out_of_range :
    run { start with i := 0x1FFF } 0xF165 (fun t => raised t (.memoryOutOfBounds 0x1FFF) 0xF165) = true := by decide

-- Vectors G-1 to G-15 (L2.5).
theorem test_clear : run (withPixels start [(0, 0), (63, 31)]) 0x00E0 (fun t => litPixels t == []) = true := by decide +kernel
theorem test_draw_glyph_zero :
    run { withRegs [(15, 0x77)] with i := 0x50 } 0xD015
      (fun t => litPixels t == [(0, 0), (1, 0), (2, 0), (3, 0), (0, 1), (3, 1), (0, 2), (3, 2), (0, 3), (3, 3),
        (0, 4), (1, 4), (2, 4), (3, 4)] && t.reg 15 == 0) = true := by decide +kernel
theorem test_draw_collision_clips :
    run (withPixels { withRegs [(0, 255), (1, 255)] with i := 0x50 } [(63, 31)]) 0xD012
      (fun t => litPixels t == [] && t.reg 15 == 1) = true := by decide +kernel

-- Vectors K-1 to K-10 and T-1 to T-9 (L2.6).
theorem test_skp : run { withRegs [(5, 0xA)] with keys := 0x0400 } 0xE59E (fun t => t.pc == 0x204) = true := by decide
theorem test_skp_index :
    run { withRegs [(5, 0x10)] with keys := 1 } 0xE59E (fun t => raised t (.keyIndexOutOfRange 0x10) 0xE59E) = true := by decide
theorem test_sknp : run { withRegs [(5, 0xA)] with keys := 0x0400 } 0xE5A1 (fun t => t.pc == 0x202) = true := by decide
theorem test_sknp_skips : run (withRegs [(5, 0xA)]) 0xE5A1 (fun t => t.pc == 0x204) = true := by decide
theorem test_key_wait : run { start with keys := 0x0210 } 0xF30A (fun t => t.reg 3 == 4 && t.pc == 0x202) = true := by decide
theorem test_key_wait_polls :
    run (withRegs [(3, 0x77)]) 0xF30A (fun t => t.reg 3 == 0x77 && t.pc == 0x200) = true := by decide
theorem test_read_dt : run { start with dt := 0x3C } 0xF207 (fun t => t.reg 2 == 0x3C && t.dt == 0x3C) = true := by decide
theorem test_write_dt : run (withRegs [(2, 60)]) 0xF215 (fun t => t.dt == 60 && t.st == 0) = true := by decide
theorem test_write_st : run (withRegs [(2, 5)]) 0xF218 (fun t => t.st == 5 && t.audio == [.enable]) = true := by decide
theorem test_silence : run { start with st := 5 } 0xF218 (fun t => t.st == 0 && t.audio == [.disable]) = true := by decide
theorem test_tick :
    nextIs (step { start with dt := 0, st := 1, host := [.tick] })
      (fun t => t.dt == 0 && t.st == 0 && t.audio == [.disable] && t.pc == 0x200) = true := by decide

-- Vectors D-1 to D-4 (L2.1) and B-1 to B-5 (L2.7).
theorem test_fetch_last_word : run { start with pc := 0xFFE } 0x6012 (fun t => t.reg 0 == 0x12 && t.pc == 0x1000) = true := by
  decide
theorem test_fetch_at_FFF :
    nextIs (step { start with pc := 0xFFF }) (fun t => t.pc == 0xFFF &&
      t.faults == [{ kind := .memoryOutOfBounds 0x1000, ipc := 0xFFF, word := none }]) = true := by decide
theorem test_load :
    nextIs (step { State.reset with host := [.load [0x12, 0x00]] })
      (fun t => t.pc == 0x200 && t.readByte 0x200 == 0x12 && t.readByte 0x201 == 0) = true := by decide
theorem test_step_before_load :
    nextIs (step State.reset) (fun t => t.pc == 2 &&
      t.faults == [{ kind := .unknownOpcode, ipc := 0, word := some 0 }]) = true := by decide
theorem test_load_after_step : step { State.reset with stepped := true, host := [.load []] } = .refused .loadAfterFirstStep := rfl

/-- The first step after reset runs the word placed where it fetches. -/
theorem test_first_step : run State.reset 0x6A5C (fun t => t.reg 10 == 0x5C && t.faults == []) = true := by decide

/-! ### Witnesses: the hypotheses of each statement, met together, at the boundaries of each clause -/

/-- The start state with the word `w` at pc and no transaction pending: the next step is a Step that runs `w`. -/
def placed (s : State) (w : Nat) : State := s.withFetchWord 16 w

theorem issued_start (s : State) (h : s.host = []) : StepIssued s s := .inl ⟨h, rfl⟩

theorem witness_StepIssued_by_list :
    StepIssued { start with host := [.step, .tick] } { start with host := [.tick] } := .inr ⟨_, rfl, rfl⟩

theorem witness_DecodeOfEncode : (Instr.drw 15 15 15).wellFormed = true ∧ (Instr.drw 0 0 0).wellFormed = true := by decide

theorem witness_EncodeOfDecodeStrict : decode .strict 0xDFFF = .ok (.drw 15 15 15) := by decide

/-- Words that match a row, so that each `EncodedAs` speaks of some: the highest word of each row. -/
theorem witness_EncodedAs :
    [0x1FFF, 0x2FFF, 0x3FFF, 0x4FFF, 0x6FFF, 0x7FFF, 0xAFFF, 0xBFFF, 0xCFFF, 0xDFFF].map (· &&& (0xF000 : Word)) =
      [0x1000, 0x2000, 0x3000, 0x4000, 0x6000, 0x7000, 0xA000, 0xB000, 0xC000, 0xD000] ∧
    [0x8FF0, 0x8FF1, 0x8FF2, 0x8FF3, 0x8FF4, 0x8FF5, 0x8FF6, 0x8FF7, 0x8FFE].map (· &&& (0xF00F : Word)) =
      [0x8000, 0x8001, 0x8002, 0x8003, 0x8004, 0x8005, 0x8006, 0x8007, 0x800E] ∧
    [0xEF9E, 0xEFA1, 0xFF07, 0xFF0A, 0xFF15, 0xFF18, 0xFF1E, 0xFF29, 0xFF33, 0xFF55, 0xFF65].map (· &&& (0xF0FF : Word)) =
      [0xE09E, 0xE0A1, 0xF007, 0xF00A, 0xF015, 0xF018, 0xF01E, 0xF029, 0xF033, 0xF055, 0xF065] := by decide +kernel

theorem witness_UnknownWordsUnderStrictDecode :
    StepIssued { start with pc := 0xFFE } { start with pc := 0xFFE } ∧ (0x0FFE : Word).toNat ≤ 0x0FFE ∧
    decode start.config.subopDecode (State.readWord { start with pc := 0xFFE } 0xFFE) = .error (.unknownOpcode 0x0000) :=
  ⟨issued_start _ rfl, by decide, by decide⟩

theorem witness_LooseDecodeDiffersInThreeGroups :
    (fieldG 0x0FE0 = 0x0 ∧ fieldNN 0x0FE0 = 0xE0) ∧ (fieldG 0x01EE = 0x0 ∧ fieldNN 0x01EE = 0xEE) ∧
    (fieldG 0x00E1 = 0x0 ∧ fieldNN 0x00E1 ≠ 0xE0 ∧ fieldNN 0x00E1 ≠ 0xEE) ∧ fieldG 0x512F = 0x5 ∧ fieldG 0x912F = 0x9 ∧
    (fieldG 0x8008 ≠ 0x0 ∧ fieldG 0x8008 ≠ 0x5 ∧ fieldG 0x8008 ≠ 0x9) ∧ decode .strict 0x00E0 = .ok .cls := by decide

/-- The last fetchable address with an instruction and with an unknown word, and the two kinds of fetch out of range. -/
theorem witness_StepRunsDecodedInstruction :
    (State.readWord (placed { start with pc := 0xFFE } 0x6012) 0xFFE = 0x6012 ∧ decode .strict 0x6012 = .ok (.ldImm 0 0x12)) ∧
    (State.readWord (placed { start with pc := 0xFFE } 0x8008) 0xFFE = 0x8008 ∧
      decode .strict 0x8008 = .error (.unknownOpcode 0x8008)) ∧
    StepIssued { start with pc := 0xFFF } { start with pc := 0xFFF } ∧
    StepIssued { start with pc := 0x1000 } { start with pc := 0x1000 } ∧
    StepIssued { start with pc := 0xFFFF } { start with pc := 0xFFFF } :=
  ⟨by decide, by decide, issued_start _ rfl, issued_start _ rfl, issued_start _ rfl⟩

theorem witness_ReturnPopsCallStack :
    0 < (State.sp { start with sp := 1 }).val ∧ 0 < (State.sp { start with sp := 32 }).val ∧ start.sp.val = 0 := by decide

theorem witness_JumpSetsPc : ∃ t, exec (.jp 0xFFF) start = .next t ∧ t.host = [] ∧ t.pc = 0xFFF := exists_next (by decide)

theorem witness_IndexedJumpAddsRegisterZero :
    ∃ t, exec (.jpV0 0xF00) (withRegs [(0, 0xFF)]) = .next t ∧ t.host = [] ∧ 0x0FFF ≤ t.pc.toNat := exists_next (by decide)

theorem witness_CallPushesReturnAddress :
    start.sp.val < 32 ∧ (State.sp { start with sp := 31 }).val < 32 ∧ (State.sp { start with sp := 32 }).val = 32 := by decide

theorem witness_CallThenReturnComesBack :
    ∃ t, exec (.call 0x300) { start with sp := 31 } = .next t ∧ t.sp = 32 := exists_next (by decide)

theorem witness_RegisterSkips :
    (0x5120 : Word) &&& 0xF00F = 0x5000 ∧ (0x512F : Word) &&& 0xF000 = 0x5000 ∧ (0x9120 : Word) &&& 0xF00F = 0x9000 ∧
    (0x912F : Word) &&& 0xF000 = 0x9000 ∧ (fieldG 0x5121 = 0x5 ∧ fieldN 0x5121 ≠ 0) ∧ (fieldG 0x912F = 0x9 ∧ fieldN 0x912F ≠ 0) := by
  decide

/-- A taken skip, an untaken one and a key skip, with no error. -/
theorem witness_SkipAddsTwoWhateverIsSkipped :
    (∃ t, exec (.seImm 0 0) start = .next t ∧ t.faults = start.faults ∧ t.pc = 0x202) ∧
    (∃ t, exec (.sneReg 1 2) start = .next t ∧ t.faults = start.faults ∧ t.pc = 0x200) ∧
    (∃ t, exec (.sknp 15) start = .next t ∧ t.faults = start.faults ∧ t.pc = 0x202) :=
  ⟨exists_next (by decide), exists_next (by decide), exists_next (by decide)⟩

theorem witness_RandomAdvancesXorshift : (State.prng { start with prng := 0 }) = 0 ∧ start.prng = 4 := by decide

/-- FX33 at each edge: the last three bytes, below and above the font, inside it when writable; out of range from 0x0FFE
and at 0xFFFF; in the protected font from 0x004E to 0x009F. -/
theorem witness_DecimalDigitsStored :
    ((0x0FFD : Word).toNat + 2 < 0x1000 ∧ 0x0A0 ≤ (0x0FFD : Word).toNat) ∧
    ((0x004D : Word).toNat + 2 < 0x050 ∧ (0x00A0 : Word).toNat = 0x0A0) ∧
    (State.config { start with config := { start.config with fontWritable := true } }).fontWritable = true ∧
    0x1000 ≤ (0x0FFE : Word).toNat + 2 ∧ 0x1000 ≤ (0xFFFF : Word).toNat + 2 ∧
    (start.config.fontWritable = false ∧ 0x050 ≤ (0x004E : Word).toNat + 2 ∧ (0x009F : Word).toNat < 0x0A0) := by decide

/-- FX55 with X = 15 and X = 0 at each edge. -/
theorem witness_RegisterBlockStored :
    ((0x0FF0 : Word).toNat + (15 : RegIdx).val < 0x1000 ∧ 0x0A0 ≤ (0x0FF0 : Word).toNat) ∧
    (0x0040 : Word).toNat + (15 : RegIdx).val < 0x050 ∧ (0x0FFF : Word).toNat + (0 : RegIdx).val < 0x1000 ∧
    0x1000 ≤ (0x0FF1 : Word).toNat + (15 : RegIdx).val ∧ 0x1000 ≤ (0x1000 : Word).toNat + (0 : RegIdx).val ∧
    (start.config.fontWritable = false ∧ 0x050 ≤ (0x0041 : Word).toNat + (15 : RegIdx).val ∧ (0x009F : Word).toNat < 0x0A0) := by
  decide

theorem witness_RegisterBlockLoaded :
    (0x0FF0 : Word).toNat + (15 : RegIdx).val < 0x1000 ∧ 0x1000 ≤ (0x0FF1 : Word).toNat + (15 : RegIdx).val := by decide

theorem witness_StoredBytesAreFetched :
    ∃ t, exec (.ldMemVx 1) { withRegs [(0, 0x12), (1, 0x0A)] with i := 0x20A } = .next t ∧ t.faults = start.faults ∧
      t.readWord 0x20A = 0x120A := exists_next (by decide)

theorem witness_ClearTurnsEveryPixelOff : (0x01E0 : Word) ≠ 0x00E0 := by decide

/-- A `bit` as the statement asks for exists for every state and operands. -/
theorem witness_DrawFlipsTheSpritesPixels_bit (s : State) (x y : RegIdx) (n : Nat) :
    ∃ bit : Fin 64 → Fin 32 → Bool, ∀ px py, bit px py = true ↔ ∃ r col : Nat, r < n ∧ col < 8 ∧
      px.val = (s.reg x).toNat % 64 + col ∧ py.val = (s.reg y).toNat % 32 + r ∧
      (s.readByte (s.i.toNat + r)).getLsbD (7 - col) = true :=
  ⟨fun _ _ => @decide _ (Classical.propDecidable _), fun _ _ => @decide_eq_true_iff _ (Classical.propDecidable _)⟩

/-- The ranges: no row at 0xFFFF, one row at 0x0FFF, two rows out of range there, one row at 0x1000. -/
theorem witness_DrawFlipsTheSpritesPixels :
    (0x0FFF : Word).toNat + 1 ≤ 0x1000 ∧ 0x1000 < (0x0FFF : Word).toNat + 2 ∧ 0x1000 < (0x1000 : Word).toNat + 1 := by decide

/-- Two draws in a row, the first on a clear display, which it changes. -/
theorem witness_DrawingTwiceRestoresTheDisplay :
    ∃ t, exec (.drw 0 1 1) { start with i := 0x50 } = .next t ∧
      ((∀ (px : Fin 64) (py : Fin 32), start.disp[py][px] = false) ∧ t.disp ≠ start.disp ∧
        nextIs (exec (.drw 0 1 1) t) (fun u => u.reg 15 == 1) = true) := exists_next (by decide +kernel)

theorem witness_KeySkipsTestTheSample :
    ((withRegs [(5, 15)]).reg 5).toNat ≤ 15 ∧ 15 < ((withRegs [(5, 16)]).reg 5).toNat ∧ 15 < ((withRegs [(5, 255)]).reg 5).toNat := by
  decide

/-- Key 0, key 15 alone, and no key. -/
theorem witness_KeyWaitPolls :
    (BitVec.getLsbD (0xFFFF : BitVec 16) 0 = true) ∧
    (BitVec.getLsbD (0x8000 : BitVec 16) 15 = true ∧ ∀ j : Fin 16, j < 15 → BitVec.getLsbD (0x8000 : BitVec 16) j = false) ∧
    (∀ k : Fin 16, start.keys.getLsbD k = false) := by decide

/-- A fetch error at the first unfetchable address, and an error at the last fetchable one. -/
theorem witness_ErrorsArePrecise :
    (∃ t, step { start with pc := 0xFFF } = .next t ∧ t.faults ≠ start.faults) ∧
    (∃ t, step { start with pc := 0xFFE } = .next t ∧ t.faults ≠ start.faults) :=
  ⟨exists_next (by decide), exists_next (by decide)⟩

/-- A transaction of each kind that answers a next state (also for every statement about `step s = .next t`). -/
theorem witness_transactions :
    (∃ t, step { start with host := [.step] } = .next t ∧ t.host = []) ∧
    (∃ t, step { start with host := [.tick] } = .next t ∧ t.host = []) ∧
    (∃ t, step { start with host := [.load [0x12]] } = .next t ∧ t.host = []) ∧
    (∃ t, step { start with host := [.seed 7] } = .next t ∧ t.host = []) ∧
    (∃ t, step { start with host := [.keys 7] } = .next t ∧ t.host = []) :=
  ⟨exists_next (by decide), exists_next (by decide), exists_next (by decide), exists_next (by decide), exists_next (by decide)⟩

/-- The Step a statement about errors speaks of, at the last fetchable pc (an instruction's own error) and the first
unfetchable one. -/
theorem witness_EachErrorHasItsCause :
    StepIssued (placed { start with pc := 0xFFE } 0x00EE) (placed { start with pc := 0xFFE } 0x00EE) ∧
    decode .strict (State.readWord (placed { start with pc := 0xFFE } 0x00EE) 0xFFE) = .ok .ret ∧
    (∃ t, step (placed { start with pc := 0xFFE } 0x00EE) = .next t ∧ t.faults ≠ start.faults) ∧
    StepIssued { start with pc := 0xFFF } { start with pc := 0xFFF } :=
  ⟨issued_start _ rfl, by decide, exists_next (by decide), issued_start _ rfl⟩

/-- After a fetch error and after another error the host issues one more Step. -/
theorem witness_HostResumesAfterError :
    (∃ t, step { start with pc := 0x1000 } = .next t ∧ t.faults ≠ start.faults ∧ t.host = []) ∧
    (∃ t, step start = .next t ∧ t.faults ≠ start.faults ∧ t.host = []) :=
  ⟨exists_next (by decide), exists_next (by decide)⟩

theorem witness_TickSaturatesAtZero :
    (State.host { start with host := [.tick] }) = .tick :: [] ∧ start.dt = 0 ∧ start.st = 0 := by decide

/-- Both edges of the sound, by FX18 and by a Tick, and no edge. -/
theorem witness_AudioCallsFollowSoundEdges :
    (∃ t, step (placed (withRegs [(2, 5)]) 0xF218) = .next t ∧ t.soundActive = true) ∧
    (∃ t, step (placed { start with st := 1 } 0xF218) = .next t ∧ t.soundActive = false) ∧
    (∃ t, step { start with st := 1, host := [.tick] } = .next t ∧ t.soundActive = false) ∧
    (∃ t, step { start with st := 2, host := [.tick] } = .next t ∧ t.soundActive = true) :=
  ⟨exists_next (by decide), exists_next (by decide), exists_next (by decide), exists_next (by decide)⟩

/-- The longest image, one byte more, and a Load after the first Step. -/
theorem witness_LoadCopiesTheImage :
    (start.stepped = false ∧ (List.replicate 3584 (0x12 : Byte)).length ≤ 3584) ∧
    3584 < (List.replicate 3585 (0x12 : Byte)).length ∧ (State.stepped { start with stepped := true }) = true :=
  ⟨⟨rfl, le_of_eq List.length_replicate⟩, lt_of_lt_of_eq (by decide) List.length_replicate.symm, rfl⟩

theorem witness_SeedKeysAndUnreadableImage :
    (State.host { start with host := [.seed 7] }) = .seed 7 :: [] ∧ start.stepped = false ∧
    (State.stepped { start with stepped := true, host := [.seed 7] }) = true ∧
    (State.host { start with host := [.keys 7] }) = .keys 7 :: [] ∧
    (State.host { start with host := [.loadUnreadable] }) = .loadUnreadable :: [] := by decide

theorem witness_StepBeforeLoadIsUnknownOpcode :
    (State.host { start with stepped := true, host := [.load []] }) = .load [] :: [] ∧
    (State.stepped { start with stepped := true, host := [.load []] }) = true := by decide

/-- The idle loop of program P1's kind, at the default program address and at the last address. -/
theorem witness_IdleEndStaysIdle :
    (placed start 0x1200).idle ∧ StepIssued (placed start 0x1200) (placed start 0x1200) ∧
    (placed { start with pc := 0xFFE } 0x1FFE).idle :=
  ⟨⟨rfl, by decide, by decide⟩, issued_start _ rfl, ⟨rfl, by decide, by decide⟩⟩

/-- An idle end that has been stepped, under a Tick, a key change and a Step. -/
theorem witness_IdleEndSurvivesTicksAndKeys :
    ∀ tr ∈ [Transaction.tick, .keys 1, .step],
      (State.idle { placed start 0x1200 with stepped := true, host := [tr] }) ∧
      nextIs (step { placed start 0x1200 with stepped := true, host := [tr] }) (fun t => t.pc == 0x200) = true := by
  intro tr h
  simp only [List.mem_cons, List.not_mem_nil, or_false] at h
  rcases h with rfl | rfl | rfl <;> exact ⟨⟨rfl, by decide, by decide⟩, by decide⟩

/-- Every invariant holds at reset, and reset takes a step. -/
theorem witness_invariants :
    State.reset.memCanonical ∧ State.reset.pcBounded ∧ State.reset.soundMatches ∧ State.reset.recordsSound ∧
    State.reset.config.fontWritable = false ∧ ∃ t, step State.reset = .next t ∧ t.pc = 2 :=
  ⟨rfl, ⟨by decide, by decide⟩, rfl, fun r h => absurd h List.not_mem_nil, rfl, exists_next (by decide)⟩

/-- A state with a sound record of each error, a fetch error among them, whose next step answers a next state. -/
theorem witness_RecordsStaySound :
    ∃ s : State, s.recordsSound ∧ s.faults.length = 7 ∧ ∃ t, step s = .next t ∧ t.faults.length = 8 := by
  refine ⟨{ start with faults := [⟨.unknownOpcode, 0x200, some 0⟩, ⟨.stackOverflow, 0x200, some 0x2ABC⟩,
    ⟨.stackUnderflow, 0x200, some 0x00EE⟩, ⟨.memoryOutOfBounds 0x1000, 0xFFF, none⟩,
    ⟨.memoryOutOfBounds 0xFFFF, 0xFFE, some 0xF065⟩, ⟨.keyIndexOutOfRange 16, 0x200, some 0xE59E⟩,
    ⟨.immutableWrite 0x9F, 0x200, some 0xF055⟩] }, ?_, rfl, exists_next (by decide)⟩
  intro r h
  simp only [List.mem_cons, List.not_mem_nil, or_false] at h
  rcases h with rfl | rfl | rfl | rfl | rfl | rfl | rfl <;> exact ⟨by decide, by decide⟩

theorem witness_ReachableStatesMeetInvariants : ∃ t, Reachable t ∧ t.pc = 2 := by
  obtain ⟨t, h, hp⟩ := witness_invariants.2.2.2.2.2
  exact ⟨t, .next (.fresh Config.default 0 []) h, hp⟩

/-- An instruction that changes each piece of state. -/
theorem witness_WritersOfOtherState :
    (∃ t, exec (.ldI 5) start = .next t ∧ t.i ≠ start.i) ∧
    (∃ t, exec (.call 5) start = .next t ∧ t.sp ≠ start.sp ∧ t.stack ≠ start.stack) ∧
    (∃ t, exec (.ldDtVx 1) (withRegs [(1, 9)]) = .next t ∧ t.dt ≠ start.dt) ∧
    (∃ t, exec (.ldStVx 1) (withRegs [(1, 9)]) = .next t ∧ t.st ≠ start.st) ∧
    (∃ t, exec (.rnd 1 0) start = .next t ∧ t.prng ≠ start.prng) ∧
    (∃ t, exec (.ldB 1) { withRegs [(1, 9)] with i := 0x300 } = .next t ∧ t.mem ≠ start.mem) ∧
    (∃ t, exec (.drw 0 1 1) { start with i := 0x50 } = .next t ∧ t.disp ≠ start.disp) :=
  ⟨exists_next (by decide), exists_next (by decide), exists_next (by decide), exists_next (by decide),
    exists_next (by decide), exists_next (by decide), exists_next (by decide +kernel)⟩

/-- The flag changed as a flag and as a destination. -/
theorem witness_FlagRegisterWriters :
    (∃ t, exec (.addReg 1 2) (withRegs [(1, 255), (2, 1)]) = .next t ∧ t.reg 15 ≠ start.reg 15) ∧
    (∃ t, exec (.ldImm 15 3) start = .next t ∧ t.reg 15 ≠ start.reg 15) :=
  ⟨exists_next (by decide), exists_next (by decide)⟩

theorem witness_GeneralRegisterWriters :
    (∃ t, exec (.ldImm 14 3) start = .next t ∧ (14 : RegIdx) ≠ 15 ∧ t.reg 14 ≠ start.reg 14) ∧
    (∃ t, exec (.ldVxMem 1) { start with i := 0x50 } = .next t ∧ (0 : RegIdx) ≠ 15 ∧ t.reg 0 ≠ start.reg 0) :=
  ⟨exists_next (by decide), exists_next (by decide)⟩

/-- The clauses at a bounded pc, at 0x0FFF, at 0x0FFE with an error, and at 0x0FFE with none. -/
theorem witness_PcAfterEachKind :
    start.pcBounded ∧
    (∃ t, step { start with pc := 0xFFF } = .next t ∧ t.pc = 0xFFF) ∧
    (∃ t, step { start with pc := 0xFFE } = .next t ∧ t.faults ≠ start.faults) ∧
    (∃ t, step (placed { start with pc := 0xFFE } 0x3000) = .next t ∧ t.faults = start.faults ∧ t.pc = 0x1002) :=
  ⟨⟨by decide, by decide⟩, exists_next (by decide), exists_next (by decide), exists_next (by decide)⟩

theorem witness_KeysReachOnlyKeyInstructions :
    (∀ x, Instr.cls ≠ .skp x ∧ Instr.cls ≠ .sknp x ∧ Instr.cls ≠ .ldVxK x) ∧ ∃ t, exec .cls start = .next t ∧ t.pc = 0x200 :=
  ⟨by decide, exists_next (by decide)⟩

theorem witness_SoundTimerAndGeneratorAreNotRead :
    (∃ t, exec .cls start = .next t ∧ (∀ x nn, Instr.cls ≠ .rnd x nn) ∧ ∀ x, Instr.cls ≠ .ldStVx x) ∧
    (∃ t, exec (.rnd 3 0xFF) start = .next t ∧ t.reg 3 = 0x84) ∧
    (∃ t, exec (.ldStVx 3) start = .next t ∧ t.st = 0) :=
  ⟨⟨_, rfl, by simp, by simp⟩, exists_next (by decide), exists_next (by decide)⟩

end Sys2Proof.Tests
end

/-! ### What an instruction and a transaction can do, as one next state each

`checkOf` is the check of an instruction and `effectOf` its effect; `exec_eq` ties both to `exec`. `Transition` lists the
next states of one transaction, so that an invariant of a run is one case per kind of transaction. -/

namespace Sys2Proof.Machine

open Host (Outcome)

/-! ### The effect of an instruction -/

/-- The state an instruction leaves when its check passes, written as the fields it sets. -/
def effectOf (s : State) : Instr → State
  | .cls => { s with disp := dispClear }
  | .ret => { s with sp := ⟨s.sp.val - 1, by omega⟩, pc := s.stack[s.sp.val - 1] }
  | .call nnn => { s with
      stack := s.stack.setIfInBounds s.sp.val s.pc, sp := ⟨min (s.sp.val + 1) 32, by omega⟩, pc := addrWord nnn }
  | .jp nnn => s.setPc (addrWord nnn)
  | .jpV0 nnn => s.setPc (addrWord nnn + s.regWord 0)
  | .seImm x nn => { s with pc := if s.reg x == nn then s.pc + 2 else s.pc }
  | .sneImm x nn => { s with pc := if s.reg x != nn then s.pc + 2 else s.pc }
  | .seReg x y => { s with pc := if s.reg x == s.reg y then s.pc + 2 else s.pc }
  | .sneReg x y => { s with pc := if s.reg x != s.reg y then s.pc + 2 else s.pc }
  | .skp x => { s with pc := if s.key (s.reg x).toNat then s.pc + 2 else s.pc }
  | .sknp x => { s with pc := if !s.key (s.reg x).toNat then s.pc + 2 else s.pc }
  | .ldImm x nn => s.setReg x nn
  | .addImm x nn => s.setReg x (s.reg x + nn)
  | .ldReg x y => s.setReg x (s.reg y)
  | .orReg x y => s.setReg x (s.reg x ||| s.reg y)
  | .andReg x y => s.setReg x (s.reg x &&& s.reg y)
  | .xorReg x y => s.setReg x (s.reg x ^^^ s.reg y)
  | .addReg x y => s.setRegFlag x ((wideSum (s.reg x) (s.reg y)).setWidth 8) (carryOut (s.reg x) (s.reg y))
  | .subReg x y => s.setRegFlag x (s.reg x - s.reg y) (noBorrow (s.reg x) (s.reg y))
  | .subnReg x y => s.setRegFlag x (s.reg y - s.reg x) (noBorrow (s.reg y) (s.reg x))
  | .shrReg x y => s.setRegFlag x (s.reg y >>> 1) (lowBitOut (s.reg y))
  | .shlReg x y => s.setRegFlag x (s.reg y <<< 1) (highBitOut (s.reg y))
  | .rnd x nn => s.nextRandom.2.setReg x (nn &&& s.nextRandom.1)
  | .ldI nnn => s.setI (addrWord nnn)
  | .addI x => s.setI (s.i + s.regWord x)
  | .ldF x => s.setI (glyphAddr (s.reg x))
  | .ldB x => s.storeBytes s.i.toNat (decimalDigits (s.reg x))
  | .ldMemVx x => s.storeBytes s.i.toNat (s.firstRegs (blockLength x))
  | .ldVxMem x => { s with x := s.loadedRegs (blockLength x) }
  | .ldVxDt x => s.setReg x s.dt
  | .ldDtVx x => s.setDt (s.reg x)
  | .ldStVx x => s.setSt (s.reg x)
  | .ldVxK x => { s with
      x := (s.firstKey.map fun k => s.x.set x (BitVec.ofNat 8 k)).getD s.x
      pc := if s.firstKey = none then s.pc - 2 else s.pc }
  | .drw x y n => State.setReg { s with disp := (s.drawn x y n).1 } flagReg (flagByte (s.drawn x y n).2)

/-- Every instruction is its check, then its effect (60_exceptions.md R201). -/
theorem exec_eq (i : Instr) (s : State) : exec i s = s.guarded (checkOf s i) (effectOf s i) := by
  cases i with
  | ret =>
    rcases execRet_cases s with ⟨h, he⟩ | ⟨h, he⟩ <;> rw [exec, he, checkOf]
    · rw [if_neg (by omega)]; rfl
    · rw [if_pos h]; rfl
  | call nnn =>
    rcases execCall_cases nnn s with ⟨h, he⟩ | ⟨h, he⟩ <;> rw [exec, he, checkOf]
    · rw [if_neg (by omega)]
      simp [effectOf, Vector.setIfInBounds, Array.setIfInBounds, h]
    · rw [if_pos h]; rfl
  | ldVxK x =>
    rcases execLdVxK_cases x s with ⟨k, h, he⟩ | ⟨h, he⟩ <;>
      simp [exec, he, checkOf, effectOf, h, State.setReg, State.setPc]
  | seImm x nn => exact congrArg Outcome.next (s.skipIf_eq _)
  | sneImm x nn => exact congrArg Outcome.next (s.skipIf_eq _)
  | seReg x y => exact congrArg Outcome.next (s.skipIf_eq _)
  | sneReg x y => exact congrArg Outcome.next (s.skipIf_eq _)
  | skp x => exact congrArg (s.guarded _) (s.skipIf_eq _)
  | sknp x => exact congrArg (s.guarded _) (s.skipIf_eq _)
  | _ => rfl

/-- An instruction raises the error its check finds or has its effect. -/
theorem exec_cases {i : Instr} {s t : State} (h : exec i s = .next t) :
    (∃ e, checkOf s i = some e ∧ t = s.raise e) ∨ (checkOf s i = none ∧ t = effectOf s i) :=
  State.guarded_cases (exec_eq i s ▸ h)

theorem effectOf_config (s : State) (i : Instr) : (effectOf s i).config = s.config := by
  cases i <;> rfl

theorem effectOf_faults (s : State) (i : Instr) : (effectOf s i).faults = s.faults := by
  cases i <;> rfl

/-! ### The transitions of a Step and of a transaction -/

/-- What a Step of the engine can leave (30_encoding.md R80, 60_exceptions.md R209). -/
inductive EngineTransition (u : State) : State → Prop
  | fetchError (hpc : 0x0FFE < u.pc.toNat) : EngineTransition u (u.markStepped.raiseFetch (max u.pc.toNat 0x1000))
  | error (e : ErrorKind) (hpc : u.pc.toNat ≤ 0x0FFE)
      (he : e = .unknownOpcode ∨ ∃ i, checkOf u.markStepped.advance i = some e) :
      EngineTransition u (u.markStepped.advance.raise e)
  | effect (i : Instr) (hpc : u.pc.toNat ≤ 0x0FFE) (hd : decode u.config.subopDecode (u.readWord u.pc.toNat) = .ok i)
      (hc : checkOf u.markStepped.advance i = none) : EngineTransition u (effectOf u.markStepped.advance i)

theorem engineTransition_of_engineStep {u t : State} (h : engineStep u = .next t) : EngineTransition u t := by
  rcases engineStep_cases u with ⟨hpc, he⟩ | ⟨hpc, -, -, he⟩ | ⟨hpc, i, hd, he⟩ <;> rw [he] at h
  · exact next_inj h ▸ .fetchError hpc
  · exact next_inj h ▸ .error _ hpc (.inl rfl)
  · rcases exec_cases h with ⟨e, hc, rfl⟩ | ⟨hc, rfl⟩
    · exact .error e hpc (.inr ⟨i, hc⟩)
    · exact .effect i hpc hd hc

/-- What a transaction of the host can leave; `rest` is what the host still has to issue (10_state.md R35). -/
inductive Transition (s : State) : State → Prop
  | engine {t : State} (rest : List Transaction) (h : EngineTransition { s with host := rest } t) : Transition s t
  | tick (rest : List Transaction) : Transition s (State.tick { s with host := rest })
  | load (image : List Byte) (rest : List Transaction) (hlen : image.length ≤ maxImage) :
      Transition s (State.loaded { s with host := rest } image)
  | seed (v : BitVec 32) (rest : List Transaction) : Transition s { s with prng := v, host := rest }
  | keys (k : BitVec 16) (rest : List Transaction) : Transition s { s with keys := k, host := rest }

/-- Taking a Step off the host's list changes nothing but the list. -/
theorem StepIssued.exists_host {s u : State} (h : StepIssued s u) : ∃ rest, u = { s with host := rest } := by
  rcases h with ⟨-, rfl⟩ | ⟨rest, -, rfl⟩
  · exact ⟨_, rfl⟩
  · exact ⟨rest, rfl⟩

theorem transition_of_step {s t : State} (h : step s = .next t) : Transition s t := by
  rcases step_cases h with ⟨u, hu, he⟩ | ⟨rest, -, rfl⟩ | ⟨image, rest, -, -, hlen, rfl⟩ | ⟨v, rest, -, -, rfl⟩ |
    ⟨k, rest, -, rfl⟩
  · obtain ⟨rest, rfl⟩ := hu.exists_host
    exact .engine rest (engineTransition_of_engineStep he)
  · exact .tick rest
  · exact .load image rest hlen
  · exact .seed v rest
  · exact .keys k rest

end Sys2Proof.Machine

/-! ### The configuration and pc over a run (10_state.md R21, R26, 40_flow.md R103) -/

namespace Sys2Proof.Machine

/-! ### The configuration -/

theorem transition_config {s t : State} (h : Transition s t) : t.config = s.config := by
  cases h with
  | engine rest h =>
    cases h with
    | fetchError => rfl
    | error => rfl
    | effect i => exact effectOf_config _ i
  | tick => rfl
  | load => rfl
  | seed => rfl
  | keys => rfl

/-- Settles O53: every instruction's effect and every other transaction keeps the field. -/
theorem configurationIsFixed : Obligations.ConfigurationIsFixed :=
  fun _ _ h => transition_config (transition_of_step h)

/-! ### pc and the call stack -/

theorem addrWord_toNat (nnn : Addr12) : (addrWord nnn).toNat = nnn.toNat := by
  have := nnn.isLt
  simp only [addrWord, BitVec.toNat_setWidth]
  omega

/-- The target of BNNN is not reduced (40_flow.md R108). -/
theorem addrWord_add_regWord_toNat (s : State) (nnn : Addr12) (r : RegIdx) :
    (addrWord nnn + s.regWord r).toNat = nnn.toNat + (s.reg r).toNat := by
  have := nnn.isLt
  have := (s.reg r).isLt
  simp only [BitVec.toNat_add, addrWord_toNat, State.regWord, BitVec.toNat_setWidth]
  omega

theorem skip_toNat_le {pc : Word} {c : Prop} [Decidable c] (h : pc.toNat ≤ 0x1000) :
    (if c then pc + 2 else pc).toNat ≤ 0x10FE := by
  split
  · bv_omega
  · omega

/-- From a fetched pc, no effect takes pc above 0x10FE, which only BNNN reaches (10_state.md R26). -/
theorem effectOf_pc_le {s : State} (hlow : 2 ≤ s.pc.toNat) (hpc : s.pc.toNat ≤ 0x1000)
    (hstack : ∀ k : Fin 32, (s.stack[k]).toNat ≤ 0x1000) (i : Instr) : (effectOf s i).pc.toNat ≤ 0x10FE := by
  cases i with
  | jp nnn | call nnn =>
    have := nnn.isLt
    exact (addrWord_toNat nnn).trans_le (by omega)
  | jpV0 nnn =>
    have := nnn.isLt
    have := (s.reg 0).isLt
    exact (addrWord_add_regWord_toNat s nnn 0).trans_le (by omega)
  | ret => exact (hstack ⟨s.sp.val - 1, by omega⟩).trans (by decide)
  | seImm | sneImm | seReg | sneReg | skp | sknp => exact skip_toNat_le hpc
  | ldVxK x =>
    simp only [effectOf]
    split
    · bv_omega
    · omega
  | _ => exact hpc.trans (by decide)

/-- Only a call pushes, and what it pushes is pc. -/
theorem effectOf_stack_le {s : State} (hpc : s.pc.toNat ≤ 0x1000) (hstack : ∀ k : Fin 32, (s.stack[k]).toNat ≤ 0x1000)
    (i : Instr) (k : Fin 32) : ((effectOf s i).stack[k]).toNat ≤ 0x1000 := by
  cases i with
  | call nnn =>
    simp only [effectOf, Fin.getElem_fin, Vector.getElem_setIfInBounds]
    split
    · exact hpc
    · exact hstack k
  | _ => exact hstack k

theorem advance_pc_toNat {u : State} (h : u.pc.toNat ≤ 0x0FFE) : u.markStepped.advance.pc.toNat = u.pc.toNat + 2 := by
  simp only [State.advance_pc, State.markStepped_pc]
  bv_omega

theorem engineTransition_pcBounded {u t : State} (hu : u.pcBounded) (h : EngineTransition u t) : t.pcBounded := by
  obtain ⟨hpc, hstack⟩ := hu
  cases h with
  | fetchError => exact ⟨hpc, hstack⟩
  | error e hfetch => exact ⟨(advance_pc_toNat hfetch).trans_le (by omega), hstack⟩
  | effect i hfetch =>
    have hadv := advance_pc_toNat hfetch
    exact ⟨effectOf_pc_le (s := u.markStepped.advance) (by omega) (by omega) hstack i,
      effectOf_stack_le (s := u.markStepped.advance) (by omega) hstack i⟩

theorem transition_pcBounded {s t : State} (hs : s.pcBounded) (h : Transition s t) : t.pcBounded := by
  cases h with
  | engine rest h => exact engineTransition_pcBounded (u := { s with host := rest }) hs h
  | load image => exact ⟨by simp, hs.2⟩
  | tick => exact hs
  | seed => exact hs
  | keys => exact hs

/-- Settles O47: a step is a `Transition`, and each keeps both bounds. -/
theorem pcStaysBounded : Obligations.PcStaysBounded :=
  fun _ _ hs h => transition_pcBounded hs (transition_of_step h)

end Sys2Proof.Machine

/-! ### The invariants of a run over memory, sound and records, and every reachable state (20_memory.md R69, 60_exceptions.md
R200, R223, 70_reset_and_hazards.md R240) -/

namespace Sys2Proof.Machine

/-! ### Memory and the font -/

theorem effectOf_mem_writers {s : State} {i : Instr} (h : (effectOf s i).mem ≠ s.mem) : ∃ x, i = .ldB x ∨ i = .ldMemVx x := by
  cases i with
  | ldB x => exact ⟨x, .inl rfl⟩
  | ldMemVx x => exact ⟨x, .inr rfl⟩
  | _ => exact absurd rfl h

/-- `m` is `s`'s memory with bytes stored inside the memory, and outside the font when it is protected (20_memory.md R69). -/
def StoresAllowed (s : State) (m : Memory) : Prop :=
  ∃ a vs, m = Memory.writeList s.config s.mem a vs ∧ a + vs.length ≤ memSize ∧
    (s.config.fontWritable = false → a + vs.length ≤ 0x050 ∨ 0x0A0 ≤ a)

theorem storesAllowed_self (s : State) : StoresAllowed s s.mem :=
  ⟨0, [], rfl, by decide, fun _ => .inl (by decide)⟩

/-- The store of an instruction whose checks pass is allowed. -/
theorem storesAllowed_of_checkStore {s : State} {vs : List Byte} (hvs : vs.length ≠ 0)
    (h : s.checkStore vs.length = none) : StoresAllowed s (Memory.writeList s.config s.mem s.i.toNat vs) := by
  obtain ⟨hbounds, hfont⟩ := State.checkStore_eq_none.mp h
  refine ⟨_, vs, rfl, (State.checkBounds_eq_none.mp hbounds).resolve_left hvs, fun hw => ?_⟩
  simpa [hw, hvs] using State.checkFont_eq_none.mp hfont

theorem effectOf_storesAllowed {s : State} {i : Instr} (hc : checkOf s i = none) : StoresAllowed s (effectOf s i).mem := by
  by_cases h : (effectOf s i).mem = s.mem
  · exact h ▸ storesAllowed_self s
  · obtain ⟨x, rfl | rfl⟩ := effectOf_mem_writers h
    · exact storesAllowed_of_checkStore (vs := decimalDigits (s.reg x)) (by simp [decimalDigits]) hc
    · exact storesAllowed_of_checkStore (vs := s.firstRegs (blockLength x)) (by simp)
        (by rw [State.firstRegs_length]; exact hc)

/-- A transaction changes memory by an allowed store only: FX33, FX55 or a Load (20_memory.md R69). -/
theorem transition_storesAllowed {s t : State} (h : Transition s t) : StoresAllowed s t.mem := by
  cases h with
  | engine rest h =>
    cases h with
    | fetchError => exact storesAllowed_self s
    | error => exact storesAllowed_self s
    | effect i hpc hd hc => exact effectOf_storesAllowed hc
  | load image rest hlen =>
    rw [maxImage] at hlen
    exact ⟨progBase, image, rfl, by rw [progBase, memSize]; omega, fun _ => .inr (by decide)⟩
  | tick => exact storesAllowed_self s
  | seed => exact storesAllowed_self s
  | keys => exact storesAllowed_self s

theorem transition_memCanonical {s t : State} (hs : s.memCanonical) (h : Transition s t) : t.memCanonical := by
  obtain ⟨a, vs, hm, hle, -⟩ := transition_storesAllowed h
  rw [State.memCanonical, transition_config h, hm]
  exact Memory.wf_writeList s.config vs hle hs

theorem transition_readByte_font {s t : State} (hw : s.config.fontWritable = false) (h : Transition s t) {a : Nat}
    (hlow : 0x050 ≤ a) (hhigh : a < 0x0A0) : t.readByte a = s.readByte a := by
  obtain ⟨b, vs, hm, -, hfont⟩ := transition_storesAllowed h
  have hout := hfont hw
  rw [State.readByte, transition_config h, hm, Memory.read_writeList, dif_neg (by omega)]
  rfl

theorem transition_fontIntact {s t : State} (hs : s.fontIntact) (h : Transition s t) : t.fontIntact := by
  intro hw a hlow hhigh
  rw [transition_config h] at hw ⊢
  rw [transition_readByte_font hw h hlow hhigh]
  exact hs hw a hlow hhigh

/-! ### The audio gate -/

@[simp] theorem audioEdge_self (v : Byte) : audioEdge v v = [] := by
  unfold audioEdge
  cases v != 0 <;> rfl

theorem audio_eq_append_edge_self (s : State) : s.audio = s.audio ++ audioEdge s.st s.st := by
  simp

/-- FX18 and a Tick alone write ST, and each makes the call of its edge (60_exceptions.md R223). -/
theorem effectOf_audio (s : State) (i : Instr) :
    (effectOf s i).audio = s.audio ++ audioEdge s.st (effectOf s i).st := by
  cases i with
  | ldStVx x => rfl
  | _ => exact audio_eq_append_edge_self s

theorem transition_audio {s t : State} (h : Transition s t) : t.audio = s.audio ++ audioEdge s.st t.st := by
  cases h with
  | engine rest h =>
    cases h with
    | fetchError => exact audio_eq_append_edge_self s
    | error => exact audio_eq_append_edge_self s
    | effect i => exact effectOf_audio _ i
  | tick => rfl
  | load => exact audio_eq_append_edge_self s
  | seed => exact audio_eq_append_edge_self s
  | keys => exact audio_eq_append_edge_self s

theorem gateAfter_append (cs ds : List AudioCall) (on : Bool) :
    gateAfter on (cs ++ ds) = (gateAfter on cs).bind (gateAfter · ds) := by
  induction cs generalizing on with
  | nil => rfl
  | cons c cs ih => cases c <;> cases on <;> simp [gateAfter, ih]

/-- The call of an edge takes the gate from the old `sound_active` to the new one. -/
theorem gateAfter_audioEdge (old new : Byte) : gateAfter (old != 0) (audioEdge old new) = some (new != 0) := by
  unfold audioEdge
  cases old != 0 <;> cases new != 0 <;> rfl

theorem transition_soundMatches {s t : State} (hs : s.soundMatches) (h : Transition s t) : t.soundMatches := by
  rw [State.soundMatches] at hs ⊢
  rw [transition_audio h, gateAfter_append, hs]
  exact gateAfter_audioEdge s.st t.st

/-! ### The records -/

/-- The error's detail is one its cause allows (60_exceptions.md R206, R207, R208). -/
def ErrorKind.detailAllowed : ErrorKind → Prop
  | .memoryOutOfBounds a => 0x1000 ≤ a ∧ a < 0x10000
  | .keyIndexOutOfRange k => 15 < k.toNat
  | .immutableWrite a => 0x050 ≤ a ∧ a < 0x0A0
  | .unknownOpcode | .stackOverflow | .stackUnderflow => True

/-- The record of an error after the fetch is sound when its detail is allowed. -/
theorem ErrorKind.detailAllowed.record_sound {e : ErrorKind} (h : e.detailAllowed) {ipc w : Word}
    (hipc : ipc.toNat ≤ 0x0FFE) : ErrorRecord.sound { kind := e, ipc := ipc, word := some w } := by
  refine ⟨by simp; omega, ?_⟩
  cases e with
  | memoryOutOfBounds a => exact h
  | keyIndexOutOfRange k => exact ⟨h, by simp⟩
  | immutableWrite a => exact ⟨h.1, h.2, by simp⟩
  | unknownOpcode | stackOverflow | stackUnderflow => simp

theorem fetchRecord_sound {ipc : Word} (h : 0x0FFE < ipc.toNat) :
    ErrorRecord.sound { kind := .memoryOutOfBounds (max ipc.toNat 0x1000), ipc := ipc, word := none } := by
  have := ipc.isLt
  exact ⟨iff_of_true rfl h, by omega, by omega⟩

theorem State.checkBounds_detailAllowed {s : State} {n : Nat} {e : ErrorKind} (h : s.checkBounds n = some e) :
    e.detailAllowed := by
  obtain ⟨-, -, rfl⟩ := State.checkBounds_eq_some.mp h
  have := s.i.isLt
  exact ⟨by omega, by omega⟩

theorem State.checkFont_detailAllowed {s : State} {n : Nat} {e : ErrorKind} (h : s.checkFont n = some e) :
    e.detailAllowed := by
  unfold State.checkFont at h
  split at h
  · cases h
  · obtain ⟨a, ha, rfl⟩ := Option.map_eq_some_iff.mp h
    exact inFont_iff.mp (lowestWhere_eq_some.mp ha).2.2.1

theorem State.checkStore_detailAllowed {s : State} {n : Nat} {e : ErrorKind} (h : s.checkStore n = some e) :
    e.detailAllowed := by
  unfold State.checkStore at h
  split at h
  · next e' hb => exact Option.some.inj h ▸ State.checkBounds_detailAllowed hb
  · exact State.checkFont_detailAllowed h

theorem checkKeyIndex_detailAllowed {k : Byte} {e : ErrorKind} (h : checkKeyIndex k = some e) : e.detailAllowed := by
  unfold checkKeyIndex at h
  split at h
  · next hk => exact Option.some.inj h ▸ hk
  · cases h

theorem checkOf_detailAllowed {s : State} {i : Instr} {e : ErrorKind} (h : checkOf s i = some e) : e.detailAllowed := by
  cases i with
  | ret | call =>
    simp only [checkOf, Option.ite_none_right_eq_some] at h
    exact Option.some.inj h.2 ▸ trivial
  | skp x | sknp x => exact checkKeyIndex_detailAllowed h
  | drw | ldVxMem => exact State.checkBounds_detailAllowed h
  | ldB | ldMemVx => exact State.checkStore_detailAllowed h
  | _ => cases h

theorem advance_ipc (u : State) : u.markStepped.advance.ipc = u.pc := by
  simp [State.ipc]

/-- A Step appends no record or one sound record (60_exceptions.md R202). -/
theorem engineTransition_faults {u t : State} (h : EngineTransition u t) :
    t.faults = u.faults ∨ ∃ r : ErrorRecord, r.sound ∧ t.faults = u.faults ++ [r] := by
  cases h with
  | fetchError hpc => exact .inr ⟨_, fetchRecord_sound hpc, rfl⟩
  | error e hpc he =>
    have hdetail : e.detailAllowed := by
      rcases he with rfl | ⟨i, hi⟩
      · trivial
      · exact checkOf_detailAllowed hi
    exact .inr ⟨_, hdetail.record_sound (by rwa [advance_ipc]), rfl⟩
  | effect i => exact .inl (effectOf_faults _ i)

theorem engineTransition_recordsSound {u t : State} (hu : u.recordsSound) (h : EngineTransition u t) : t.recordsSound := by
  intro r hr
  rcases engineTransition_faults h with hf | ⟨r', hsound, hf⟩ <;> rw [hf] at hr
  · exact hu r hr
  · rcases List.mem_append.mp hr with hr | hr
    · exact hu r hr
    · exact List.mem_singleton.mp hr ▸ hsound

theorem transition_recordsSound {s t : State} (hs : s.recordsSound) (h : Transition s t) : t.recordsSound := by
  cases h with
  | engine rest h => exact engineTransition_recordsSound (u := { s with host := rest }) hs h
  | tick => exact hs
  | load => exact hs
  | seed => exact hs
  | keys => exact hs

/-! ### Creation and every reachable state -/

theorem fresh_memCanonical (c : Config) (keys : BitVec 16) (host : List Transaction) :
    (State.fresh c keys host).memCanonical := Memory.wf_nil c

theorem fresh_pcBounded (c : Config) (keys : BitVec 16) (host : List Transaction) :
    (State.fresh c keys host).pcBounded :=
  ⟨Nat.zero_le _, fun k => by simp [State.fresh, State.create]⟩

theorem fresh_fontIntact (c : Config) (keys : BitVec 16) (host : List Transaction) :
    (State.fresh c keys host).fontIntact :=
  fun _ _ hlow hhigh => if_pos (inFont_iff.mpr ⟨hlow, hhigh⟩)

theorem fresh_soundMatches (c : Config) (keys : BitVec 16) (host : List Transaction) :
    (State.fresh c keys host).soundMatches := rfl

theorem fresh_recordsSound (c : Config) (keys : BitVec 16) (host : List Transaction) :
    (State.fresh c keys host).recordsSound := fun _ hr => nomatch hr

/-- What holds at creation and is kept by every transaction holds of every reachable state. -/
theorem Reachable.invariant {P : State → Prop} (hfresh : ∀ c keys host, P (State.fresh c keys host))
    (hnext : ∀ s t, P s → Transition s t → P t) {s : State} (h : Reachable s) : P s := by
  induction h with
  | fresh c keys host => exact hfresh c keys host
  | next _ hs ih => exact hnext _ _ ih (transition_of_step hs)

/-- Settles O52: each of the five invariants holds at creation, and each kind of transaction keeps it. -/
theorem reachableStatesMeetInvariants : Obligations.ReachableStatesMeetInvariants := by
  intro s hs
  exact ⟨hs.invariant fresh_memCanonical fun _ _ => transition_memCanonical,
    hs.invariant fresh_pcBounded fun _ _ => transition_pcBounded,
    hs.invariant fresh_fontIntact fun _ _ => transition_fontIntact,
    hs.invariant fresh_soundMatches fun _ _ => transition_soundMatches,
    hs.invariant fresh_recordsSound fun _ _ => transition_recordsSound⟩

end Sys2Proof.Machine

/-! ### Which instructions write what (10_state.md R23, R24, R27, R28, R32, R36, 20_memory.md R69, 41_alu.md R131) -/

namespace Sys2Proof.Machine

/-! ### State other than the registers and pc -/

section
variable {s : State} {i : Instr}

theorem effectOf_i_writers (h : (effectOf s i).i ≠ s.i) : ∃ x nnn, i ∈ [Instr.ldI nnn, .addI x, .ldF x] := by
  cases i with
  | ldI nnn => exact ⟨0, nnn, by simp⟩
  | addI x | ldF x => exact ⟨x, 0, by simp⟩
  | _ => exact absurd rfl h

theorem effectOf_sp_writers (h : (effectOf s i).sp ≠ s.sp) : i = .ret ∨ ∃ nnn, i = .call nnn := by
  cases i with
  | ret => exact .inl rfl
  | call nnn => exact .inr ⟨nnn, rfl⟩
  | _ => exact absurd rfl h

theorem effectOf_stack_writers (h : (effectOf s i).stack ≠ s.stack) : ∃ nnn, i = .call nnn := by
  cases i with
  | call nnn => exact ⟨nnn, rfl⟩
  | _ => exact absurd rfl h

theorem effectOf_dt_writers (h : (effectOf s i).dt ≠ s.dt) : ∃ x, i = .ldDtVx x := by
  cases i with
  | ldDtVx x => exact ⟨x, rfl⟩
  | _ => exact absurd rfl h

theorem effectOf_st_writers (h : (effectOf s i).st ≠ s.st) : ∃ x, i = .ldStVx x := by
  cases i with
  | ldStVx x => exact ⟨x, rfl⟩
  | _ => exact absurd rfl h

theorem effectOf_prng_writers (h : (effectOf s i).prng ≠ s.prng) : ∃ x nn, i = .rnd x nn := by
  cases i with
  | rnd x nn => exact ⟨x, nn, rfl⟩
  | _ => exact absurd rfl h

theorem effectOf_disp_writers (h : (effectOf s i).disp ≠ s.disp) : i = .cls ∨ ∃ x y n, i = .drw x y n := by
  cases i with
  | cls => exact .inl rfl
  | drw x y n => exact .inr ⟨x, y, n, rfl⟩
  | _ => exact absurd rfl h

/-- What differs after an instruction differs after its effect: an error changes the records only (60_exceptions.md R201). -/
theorem exec_changed {t : State} {α : Type} (f : State → α) (hf : ∀ e, f (s.raise e) = f s) (h : exec i s = .next t)
    (hne : f t ≠ f s) : f (effectOf s i) ≠ f s := by
  rcases exec_cases h with ⟨e, -, rfl⟩ | ⟨-, rfl⟩
  · exact absurd (hf e) hne
  · exact hne

end

/-- Settles O54: each field's writers, read off the effects. -/
theorem writersOfOtherState : Obligations.WritersOfOtherState := fun _ _ _ h =>
  ⟨fun hne => effectOf_i_writers (exec_changed State.i (fun _ => rfl) h hne),
    fun hne => effectOf_sp_writers (exec_changed State.sp (fun _ => rfl) h hne),
    fun hne => effectOf_stack_writers (exec_changed State.stack (fun _ => rfl) h hne),
    fun hne => effectOf_dt_writers (exec_changed State.dt (fun _ => rfl) h hne),
    fun hne => effectOf_st_writers (exec_changed State.st (fun _ => rfl) h hne),
    fun hne => effectOf_prng_writers (exec_changed State.prng (fun _ => rfl) h hne),
    fun hne => effectOf_mem_writers (exec_changed State.mem (fun _ => rfl) h hne),
    fun hne => effectOf_disp_writers (exec_changed State.disp (fun _ => rfl) h hne)⟩

/-! ### The general registers -/

/-- The registers an instruction can write: its destination, the flag, or a block (10_state.md R23, R24). -/
def WritesReg (r : RegIdx) : Instr → Prop
  | .ldImm x _ | .addImm x _ | .ldReg x _ | .orReg x _ | .andReg x _ | .xorReg x _ | .rnd x _ | .ldVxDt x | .ldVxK x => x = r
  | .addReg x _ | .subReg x _ | .subnReg x _ | .shrReg x _ | .shlReg x _ => r = 15 ∨ x = r
  | .drw _ _ _ => r = 15
  | .ldVxMem x => r ≤ x
  | _ => False

theorem effectOf_reg_writers {s : State} {i : Instr} {r : RegIdx} (h : (effectOf s i).reg r ≠ s.reg r) :
    WritesReg r i := by
  have hset : ∀ {u : State} {x : RegIdx} {v : Byte}, (u.setReg x v).reg r ≠ u.reg r → x = r := fun h => by
    by_contra hx
    exact h (by rw [State.reg_setReg, if_neg hx])
  have hflag : ∀ {x : RegIdx} {v : Byte} {f : Bool}, (s.setRegFlag x v f).reg r ≠ s.reg r → r = 15 ∨ x = r := fun h => by
    by_contra hx
    rw [not_or] at hx
    exact h (by rw [State.reg_setRegFlag, if_neg hx.1, if_neg hx.2])
  cases i with
  | ldImm | addImm | ldReg | orReg | andReg | xorReg | ldVxDt => exact hset h
  | rnd => exact hset (u := s.nextRandom.2) h
  | addReg | subReg | subnReg | shrReg | shlReg => exact hflag h
  | drw x y n => exact (hset (u := { s with disp := (s.drawn x y n).1 }) h).symm
  | ldVxK x =>
    cases hk : s.firstKey with
    | some k => exact hset (v := BitVec.ofNat 8 k) (by simpa [effectOf, hk, State.reg, State.setReg] using h)
    | none => exact absurd (by simp [effectOf, hk, State.reg]) h
  | ldVxMem x =>
    by_contra hx
    have hlt : ¬r.val < blockLength x := fun hlt => hx (Fin.le_def.mpr (Nat.le_of_lt_succ hlt))
    exact h ((s.loadedRegs_getElem _ r).trans (if_neg hlt))
  | _ => exact absurd rfl h

theorem exec_writesReg {i : Instr} {s t : State} {r : RegIdx} (h : exec i s = .next t) (hne : t.reg r ≠ s.reg r) :
    WritesReg r i :=
  effectOf_reg_writers (exec_changed (State.reg · r) (fun _ => rfl) h hne)

/-- Settles O55: `WritesReg` at register 15, instruction by instruction. -/
theorem flagRegisterWriters : Obligations.FlagRegisterWriters := by
  intro i s t h hne
  have hw := exec_writesReg h hne
  cases i with
  | addReg x y | subReg x y | subnReg x y | shrReg x y | shlReg x y => exact .inl ⟨x, y, 0, by simp⟩
  | drw x y n => exact .inl ⟨x, y, n, by simp⟩
  | ldImm x nn | addImm x nn | rnd x nn => exact hw ▸ .inr ⟨0, nn, by simp⟩
  | ldReg x y | orReg x y | andReg x y | xorReg x y => exact hw ▸ .inr ⟨y, 0, by simp⟩
  | ldVxDt | ldVxK => exact hw ▸ .inr ⟨0, 0, by simp⟩
  | ldVxMem x => exact (Fin.last_le_iff.mp hw) ▸ .inr ⟨0, 0, by simp [Fin.last]⟩
  | _ => exact hw.elim

/-- Settles O56: `WritesReg` at any other register, instruction by instruction. -/
theorem generalRegisterWriters : Obligations.GeneralRegisterWriters := by
  intro i s t r h hr hne
  have hw := exec_writesReg h hne
  cases i with
  | addReg x y | subReg x y | subnReg x y | shrReg x y | shlReg x y => exact hw.resolve_left hr ▸ .inl ⟨y, 0, by simp⟩
  | drw => exact absurd hw hr
  | ldImm x nn | addImm x nn | rnd x nn => exact hw ▸ .inl ⟨0, nn, by simp⟩
  | ldReg x y | orReg x y | andReg x y | xorReg x y => exact hw ▸ .inl ⟨y, 0, by simp⟩
  | ldVxDt | ldVxK => exact hw ▸ .inl ⟨0, 0, by simp⟩
  | ldVxMem x => exact .inr ⟨x, rfl, hw⟩
  | _ => exact hw.elim

end Sys2Proof.Machine

/-! ### How each instruction leaves pc (10_state.md R26) -/

namespace Sys2Proof.Machine

open Host (Outcome)

/-- A skip leaves `ipc + 4`, and `ipc + 2` when its condition fails (40_flow.md R100). -/
theorem skip_from_ipc (ipc : Word) {c p : Prop} [Decidable c] [Decidable p] (h : c ↔ p) :
    (if c then ipc + 2 + 2 else ipc + 2) = if p then ipc + 4 else ipc + 2 := by
  simp only [h, BitVec.add_assoc]
  rfl

/-- No key is found exactly when none of the 16 inputs is on (44_input_timers.md R182). -/
theorem State.firstKey_eq_none_iff_keys {s : State} : s.firstKey = none ↔ s.keys = 0 := by
  rw [State.firstKey_eq_none]
  constructor
  · intro h
    exact BitVec.eq_of_getLsbD_eq fun k hk => (h k hk).trans BitVec.getLsbD_zero.symm
  · intro h k _
    simp [State.key, h]

/-- Settles O57: an error leaves the advanced pc, and the effect of each instruction sets its own. -/
theorem pcAfterEachKind : Obligations.PcAfterEachKind := by
  intro s u t hu h
  rw [step_of_stepIssued hu] at h
  have ht := engineTransition_of_engineStep h
  refine ⟨fun hb => (engineTransition_pcBounded hb ht).1, ?_⟩
  cases ht with
  | fetchError hpc => exact ⟨fun _ => rfl, fun hle => absurd hpc (by omega), fun hle => absurd hpc (by omega)⟩
  | error e hpc => exact ⟨fun hgt => absurd hpc (by omega), fun _ _ => rfl, fun _ hf => by simp at hf⟩
  | effect i hpc hd hc =>
    refine ⟨fun hgt => absurd hpc (by omega), fun _ hf => absurd (effectOf_faults _ i) hf, fun _ _ => ⟨i, hd, ?_⟩⟩
    cases i with
    | seImm | seReg => exact skip_from_ipc u.pc beq_iff_eq
    | sneImm | sneReg => exact skip_from_ipc u.pc bne_iff_ne
    | skp => exact skip_from_ipc u.pc Iff.rfl
    | sknp => exact (skip_from_ipc u.pc (Iff.of_eq (Bool.not_eq_true' _) |>.trans Bool.eq_false_iff)).trans (ite_not ..)
    | jp nnn | call nnn => exact addrWord_toNat nnn
    | jpV0 nnn => exact addrWord_add_regWord_toNat _ nnn 0
    | ret =>
      have hsp : u.sp.val ≠ 0 := fun h0 => by simp [checkOf, h0] at hc
      exact ⟨⟨u.sp.val - 1, by omega⟩, Nat.sub_add_cancel (by omega), rfl⟩
    | ldVxK => simp [effectOf, State.firstKey_eq_none_iff_keys]
    | _ => rfl

/-! ### What an instruction does not read (10_state.md R30, R33, R38) -/

/-- A change `f` of the state that neither the check nor the effect of an instruction reads, and that stays through both. -/
theorem exec_map {i : Instr} {s t : State} (f : State → State) (hc : checkOf (f s) i = checkOf s i)
    (hr : ∀ e, (f s).raise e = f (s.raise e)) (he : effectOf (f s) i = f (effectOf s i)) (h : exec i s = .next t) :
    exec i (f s) = .next (f t) := by
  rw [exec_eq, hc, he]
  rcases exec_cases h with ⟨e, hs, rfl⟩ | ⟨hs, rfl⟩ <;> rw [hs]
  · exact congrArg Outcome.next (hr e)
  · rfl

theorem checkOf_withKeys (s : State) (k : BitVec 16) (i : Instr) : checkOf { s with keys := k } i = checkOf s i := by
  cases i <;> rfl

theorem checkOf_withStPrng (s : State) (v : Byte) (p : BitVec 32) (i : Instr) :
    checkOf { s with st := v, prng := p } i = checkOf s i := by
  cases i <;> rfl

/-- FX65 reads x, I and memory only. -/
theorem State.loadedRegs_congr {s t : State} (hx : t.x = s.x) (hi : t.i = s.i) (hread : t.readByte = s.readByte) (n : Nat) :
    t.loadedRegs n = s.loadedRegs n := by
  induction n with
  | zero => exact hx
  | succ n ih => rw [State.loadedRegs, State.loadedRegs, ih, hi, hread]

theorem effectOf_withKeys {i : Instr} (hi : ∀ x, i ≠ .skp x ∧ i ≠ .sknp x ∧ i ≠ .ldVxK x) (s : State) (k : BitVec 16) :
    effectOf { s with keys := k } i = { effectOf s i with keys := k } := by
  cases i with
  | skp x => exact absurd rfl (hi x).1
  | sknp x => exact absurd rfl (hi x).2.1
  | ldVxK x => exact absurd rfl (hi x).2.2
  | ldVxMem x => simp only [effectOf, State.loadedRegs_congr (s := s) (t := { s with keys := k }) rfl rfl rfl]
  | _ => rfl

theorem effectOf_withStPrng {i : Instr} (hrnd : ∀ x nn, i ≠ .rnd x nn) (hst : ∀ x, i ≠ .ldStVx x) (s : State) (v : Byte)
    (p : BitVec 32) : effectOf { s with st := v, prng := p } i = { effectOf s i with st := v, prng := p } := by
  cases i with
  | rnd x nn => exact absurd rfl (hrnd x nn)
  | ldStVx x => exact absurd rfl (hst x)
  | ldVxMem x => simp only [effectOf, State.loadedRegs_congr (s := s) (t := { s with st := v, prng := p }) rfl rfl rfl]
  | _ => rfl

/-- Settles O58: the other instructions' checks and effects do not read the keys. -/
theorem keysReachOnlyKeyInstructions : Obligations.KeysReachOnlyKeyInstructions := fun i s _ k hi h =>
  exec_map ({ · with keys := k }) (checkOf_withKeys s k i) (fun _ => rfl) (effectOf_withKeys hi s k) h

/-- Settles O59: ST and prng are read by no check, and by the effects of FX18 (the edge it makes) and CXNN alone. -/
theorem soundTimerAndGeneratorAreNotRead : Obligations.SoundTimerAndGeneratorAreNotRead := by
  intro i s t v p h
  refine ⟨fun hrnd hst => ?_, ?_, ?_⟩
  · exact exec_map ({ · with st := v, prng := p }) (checkOf_withStPrng s v p i) (fun _ => rfl)
      (effectOf_withStPrng hrnd hst s v p) h
  · rintro x nn rfl
    exact exec_map ({ · with st := v }) rfl (fun _ => rfl) rfl h
  · rintro x rfl
    exact ⟨_, rfl, next_inj h ▸ rfl⟩

/-! ### Seeds, key changes and unreadable images (10_state.md R34, R38, 70_reset_and_hazards.md R245, R248) -/

/-- With a transaction pending, a step performs it and takes it off the host's list (10_state.md R35). -/
theorem step_pending {s : State} {tr : Transaction} {rest : List Transaction} (h : s.host = tr :: rest) :
    step s = perform tr { s with host := rest } := by
  rw [step, nextTransaction, h]

/-- Settles O41: each pending transaction is performed, and `stepped` decides whether a Seed or a Load is allowed. -/
theorem seedKeysAndUnreadableImage : Obligations.SeedKeysAndUnreadableImage := by
  intro s rest
  refine ⟨fun v hh hs => ?_, fun v hh hs => ?_, fun k hh => step_pending hh, fun hh hs => ?_⟩ <;> rw [step_pending hh]
  · simp [perform, doSeed, hs]
  · simp [perform, doSeed, hs]
  · simp [perform, doLoadUnreadable, hs]

end Sys2Proof.Machine

/-! ### Memory: the canonical form, the protected font, and stored bytes as an instruction word (20_memory.md R60, R65, R69, R74) -/

namespace Sys2Proof.Machine

/-- Settles O46: a step is a `Transition`, whose store lies inside the memory. -/
theorem memoryStaysCanonical : Obligations.MemoryStaysCanonical :=
  fun _ _ hs h => transition_memCanonical hs (transition_of_step h)

/-- Settles O48: a step is a `Transition`, whose store misses the font when it is protected. -/
theorem fontIsImmutable : Obligations.FontIsImmutable :=
  fun _ _ hw h _ hlow hhigh => transition_readByte_font hw (transition_of_step h) hlow hhigh

/-- An instruction that adds no record has had its effect (60_exceptions.md R201). -/
theorem exec_effectOf_of_faults_eq {i : Instr} {s t : State} (h : exec i s = .next t) (hf : t.faults = s.faults) :
    t = effectOf s i := by
  rcases exec_cases h with ⟨e, -, rfl⟩ | ⟨-, rfl⟩
  · simp at hf
  · rfl

/-- FX55 leaves register `r` at `I + r` (42_index_memory.md R154). -/
theorem readByte_effectOf_ldMemVx (s : State) {x r : RegIdx} (hr : r ≤ x) :
    (effectOf s (.ldMemVx x)).readByte (s.i.toNat + r.val) = s.reg r := by
  have hlt : r.val < (s.firstRegs (blockLength x)).length := by
    rw [State.firstRegs_length]
    exact Nat.lt_succ_of_le hr
  rw [effectOf, State.readByte_storeBytes, dif_pos ⟨Nat.le_add_right _ _, Nat.add_lt_add_left hlt _⟩]
  simp only [Nat.add_sub_cancel_left]
  exact s.firstRegs_getElem _ _ hlt r.isLt

/-- Settles O27: the two registers stand at adjacent addresses, and the lower one is the high byte. -/
theorem storedBytesAreFetched : Obligations.StoredBytesAreFetched := by
  intro s t x k j h hf hj hjk
  have hk : k ≤ x := Fin.le_def.mpr (by have := Fin.le_def.mp hj; omega)
  rw [exec_effectOf_of_faults_eq h hf, State.readWord, instrWord_toNat, Nat.add_assoc, ← hjk,
    readByte_effectOf_ldMemVx s hk, readByte_effectOf_ldMemVx s hj]

end Sys2Proof.Machine

/-! ### Decoding and encoding (30_encoding.md R82 to R89)

`decode_encode` reads an encoded instruction back. `MatchesRow` is what the opcode map R86 asks of a word; `decode_ok_matchesRow`
says that the dispatch has checked it, and `encode_withFields` builds a word again from its strict digits and its fields. -/

namespace Sys2Proof

/-! ### From the instruction to its word and back -/

/-- Reading the word of a well-formed instruction: its group and sub-opcode select its arm, whose fields are its operands
(30_encoding.md R87). -/
theorem decode_encode (mode : SubopDecode) {i : Instr} (hi : i.wellFormed = true) : decode mode (encode i) = .ok i := by
  cases i with
  | cls | ret => simp [encode, decode, decodeGroup0]
  | jp | call | ldI | jpV0 => simp [encode, decode]
  | seImm | sneImm | ldImm | addImm | rnd => simp [encode, decode]
  | seReg | sneReg => simp [encode, decode]
  | ldReg | orReg | andReg | xorReg | addReg | subReg | subnReg | shrReg | shlReg => simp [encode, decode, decodeGroup8]
  | drw x y n =>
    have hn : n < 16 := of_decide_eq_true hi
    simp [encode, decode, Nat.mod_eq_of_lt hn]
  | skp | sknp => simp [encode, decode, decodeGroupE]
  | ldVxDt | ldDtVx | ldStVx | addI | ldVxK | ldF | ldB | ldMemVx | ldVxMem => simp [encode, decode, decodeGroupF]

/-- Settles O2: the dispatch selects the arm of the instruction's own word, under both settings. -/
theorem decodeOfEncode : Obligations.DecodeOfEncode := fun mode _ => decode_encode mode

/-! ### What the dispatch has checked of a word it reads -/

theorem and_F000_of_group {w : Word} {g : Nat} (hg : (fieldG w).toNat = g) :
    w &&& 0xF000 = wordA (BitVec.ofNat 4 g) 0 := by
  rw [word_eq_A hg]; exact wordA_mask_F000 _ _

theorem and_F00F_of_group_N {w : Word} {g n : Nat} (hg : (fieldG w).toNat = g) (hn : fieldN w = n) :
    w &&& 0xF00F = wordXYN (BitVec.ofNat 4 g) 0 0 (BitVec.ofNat 4 n) := by
  rw [word_eq_XYN hg hn]; exact wordXYN_mask_F00F _ _ _ _

theorem and_F0FF_of_group_NN {w : Word} {g n : Nat} (hg : (fieldG w).toNat = g) (hn : (fieldNN w).toNat = n) :
    w &&& 0xF0FF = wordXB (BitVec.ofNat 4 g) 0 (BitVec.ofNat 8 n) := by
  rw [word_eq_XB hg hn]; exact wordXB_mask_F0FF _ _ _

/-- The word has the fixed digits of the instruction's row, and its fields are the instruction's operands
(30_encoding.md R82, R86). -/
def MatchesRow (mode : SubopDecode) (w : Word) (i : Instr) : Prop :=
  w &&& i.row.maskOf mode = i.row.pattern ∧ i.withFields w = i

/-- A row whose mask is the same under both settings. -/
theorem matchesRow_of_both {mode : SubopDecode} {w p m : Word} {i : Instr} (hrow : i.row = .both p m) (hw : w &&& m = p)
    (hi : i.withFields w = i) : MatchesRow mode w i := by
  rw [MatchesRow, hrow]
  cases mode <;> exact ⟨hw, hi⟩

/-- For such a row the setting does not matter. -/
theorem MatchesRow.mode_irrelevant {mode : SubopDecode} {w p m : Word} {i : Instr} (hrow : i.row = .both p m)
    (h : MatchesRow mode w i) (mode' : SubopDecode) : MatchesRow mode' w i := by
  rw [MatchesRow, hrow] at h
  refine matchesRow_of_both hrow ?_ h.2
  cases mode <;> exact h.1

/-- Strict decode of group 0x0 leaves no digit free. -/
theorem eq_wordXB_of_group0 {w : Word} {n : Nat} (hg : (fieldG w).toNat = 0) (hx : fieldX w = 0)
    (hn : (fieldNN w).toNat = n) : w = wordXB 0 0 (BitVec.ofNat 8 n) := by
  rw [word_eq_XB hg hn, hx]; rfl

theorem decodeGroup0_matchesRow {mode : SubopDecode} {w : Word} {i : Instr} (hg : (fieldG w).toNat = 0)
    (h : decodeGroup0 mode w = .ok i) : MatchesRow mode w i := by
  unfold decodeGroup0 at h
  split at h
  · rename_i hx
    split at h <;> cases h <;> rename_i hn <;> cases mode
    case h_1.refl.strict | h_2.refl.strict =>
      rw [eq_wordXB_of_group0 hg (hx.resolve_left nofun) hn]
      exact ⟨rfl, rfl⟩
    case h_1.refl.loose | h_2.refl.loose => exact ⟨and_F0FF_of_group_NN hg hn, rfl⟩
  · cases h

theorem decodeGroup8_matchesRow {mode : SubopDecode} {w : Word} {i : Instr} (hg : (fieldG w).toNat = 8)
    (h : decodeGroup8 w = .ok i) : MatchesRow mode w i := by
  unfold decodeGroup8 at h
  split at h <;> cases h <;> rename_i hn <;> exact matchesRow_of_both rfl (and_F00F_of_group_N hg hn) rfl

theorem decodeGroupE_matchesRow {mode : SubopDecode} {w : Word} {i : Instr} (hg : (fieldG w).toNat = 0xE)
    (h : decodeGroupE w = .ok i) : MatchesRow mode w i := by
  unfold decodeGroupE at h
  split at h <;> cases h <;> rename_i hn <;> exact matchesRow_of_both rfl (and_F0FF_of_group_NN hg hn) rfl

theorem decodeGroupF_matchesRow {mode : SubopDecode} {w : Word} {i : Instr} (hg : (fieldG w).toNat = 0xF)
    (h : decodeGroupF w = .ok i) : MatchesRow mode w i := by
  unfold decodeGroupF at h
  split at h <;> cases h <;> rename_i hn <;> exact matchesRow_of_both rfl (and_F0FF_of_group_NN hg hn) rfl

/-- What the dispatch reads, the opcode map reads: each arm has fixed the group, and the sub-opcode where there is one. -/
theorem decode_ok_matchesRow {mode : SubopDecode} {w : Word} {i : Instr} (h : decode mode w = .ok i) :
    MatchesRow mode w i := by
  unfold decode at h
  split at h <;> rename_i hg
  case h_1 => exact decodeGroup0_matchesRow hg h
  case h_9 => exact decodeGroup8_matchesRow hg h
  case h_15 => exact decodeGroupE_matchesRow hg h
  case h_16 => exact decodeGroupF_matchesRow hg h
  case h_6 | h_10 => -- 5XY0 and 9XY0: N is checked under strict decode only
    split at h <;> cases h
    rename_i hn
    cases mode
    · exact ⟨and_F00F_of_group_N hg (hn.resolve_left nofun), rfl⟩
    · exact ⟨and_F000_of_group hg, rfl⟩
  case h_17 => cases h
  all_goals cases h; exact matchesRow_of_both rfl (and_F000_of_group hg) rfl

/-- N fits its four bits; every other field fits by its type (30_encoding.md R82). -/
theorem wellFormed_withFields (w : Word) (i : Instr) : (i.withFields w).wellFormed = true := by
  cases i with
  | drw => exact decide_eq_true (w.extractLsb' 0 4).isLt
  | _ => rfl

theorem MatchesRow.wellFormed {mode : SubopDecode} {w : Word} {i : Instr} (h : MatchesRow mode w i) :
    i.wellFormed = true :=
  h.2 ▸ wellFormed_withFields w i

/-! ### From a word to its instruction and back -/

theorem fieldG_of_and_F000 {w : Word} {g : BitVec 4} (h : w &&& 0xF000 = wordXYN g 0 0 0) : fieldG w = g := by
  rw [fieldG_of_mask_F000 h, fieldG_wordXYN]

theorem fields_of_and_F00F {w : Word} {g n : BitVec 4} (h : w &&& 0xF00F = wordXYN g 0 0 n) :
    fieldG w = g ∧ fieldN w = n.toNat := by
  constructor
  · rw [fieldG_of_mask_F000 (and_mask_trans 0xF000 h), ← fieldG_of_mask_F000 rfl, fieldG_wordXYN]
  · rw [fieldN_of_mask_000F (and_mask_trans 0x000F h), ← fieldN_of_mask_000F rfl, fieldN_wordXYN]

theorem fields_of_and_F0FF {w : Word} {g : BitVec 4} {nn : Byte} (h : w &&& 0xF0FF = wordXB g 0 nn) :
    fieldG w = g ∧ fieldNN w = nn := by
  constructor
  · rw [fieldG_of_mask_F000 (and_mask_trans 0xF000 h), ← fieldG_of_mask_F000 rfl, fieldG_wordXB]
  · rw [fieldNN_of_mask_00FF (and_mask_trans 0x00FF h), ← fieldNN_of_mask_00FF rfl, fieldNN_wordXB]

@[simp] theorem wordA_fields (w : Word) : wordA (fieldG w) (fieldNNN w) = w := by
  simpa using (word_eq_A (w := w) rfl).symm

@[simp] theorem wordXB_fields (w : Word) : wordXB (fieldG w) (fieldX w) (fieldNN w) = w := by
  simpa using (word_eq_XB (w := w) rfl rfl).symm

@[simp] theorem wordXYN_fields (w : Word) :
    wordXYN (fieldG w) (fieldX w) (fieldY w) (BitVec.ofNat 4 (fieldN w)) = w := by
  simpa using (word_eq_XYN (w := w) rfl rfl).symm

theorem wordA_of_and_F000 {w : Word} {g : BitVec 4} (h : w &&& 0xF000 = wordA g 0) : wordA g (fieldNNN w) = w := by
  rw [← fieldG_wordA g 0, ← fieldG_of_mask_F000 h, wordA_fields]

theorem wordXB_of_and_F000 {w : Word} {g : BitVec 4} (h : w &&& 0xF000 = wordXB g 0 0) :
    wordXB g (fieldX w) (fieldNN w) = w := by
  rw [← fieldG_wordXB g 0 0, ← fieldG_of_mask_F000 h, wordXB_fields]

theorem wordXB_of_and_F0FF {w : Word} {g : BitVec 4} {nn : Byte} (h : w &&& 0xF0FF = wordXB g 0 nn) :
    wordXB g (fieldX w) nn = w := by
  obtain ⟨rfl, rfl⟩ := fields_of_and_F0FF h
  exact wordXB_fields w

theorem wordXYN_of_and_F000 {w : Word} {g : BitVec 4} (h : w &&& 0xF000 = wordXYN g 0 0 0) :
    wordXYN g (fieldX w) (fieldY w) (BitVec.ofNat 4 (fieldN w)) = w := by
  rw [← fieldG_of_and_F000 h, wordXYN_fields]

theorem wordXYN_of_and_F00F {w : Word} {g n : BitVec 4} (h : w &&& 0xF00F = wordXYN g 0 0 n) :
    wordXYN g (fieldX w) (fieldY w) n = w := by
  obtain ⟨rfl, hn⟩ := fields_of_and_F00F h
  simpa [hn] using wordXYN_fields w

/-- The strict digits of the row and the fields fill the whole word: no bit of it is ignored (30_encoding.md R84, R88). -/
theorem encode_withFields {w : Word} {i : Instr} (h : w &&& i.row.mask = i.row.pattern) : encode (i.withFields w) = w := by
  cases i with
  | cls | ret => exact h.symm.trans BitVec.and_allOnes
  | jp | call | ldI | jpV0 => exact wordA_of_and_F000 h
  | seImm | sneImm | ldImm | addImm | rnd => exact wordXB_of_and_F000 h
  | drw => exact wordXYN_of_and_F000 h
  | seReg | sneReg | ldReg | orReg | andReg | xorReg | addReg | subReg | subnReg | shrReg | shlReg =>
    exact wordXYN_of_and_F00F h
  | skp | sknp | ldVxDt | ldDtVx | ldStVx | addI | ldVxK | ldF | ldB | ldMemVx | ldVxMem => exact wordXB_of_and_F0FF h

/-- A word that matches a row strictly is the encoding of its instruction. -/
theorem MatchesRow.encode_eq {w : Word} {i : Instr} (h : MatchesRow .strict w i) : encode i = w := by
  obtain ⟨hrow, hi⟩ := h
  rw [← hi]
  exact encode_withFields hrow

/-- Settles O3: strict decode has checked every fixed digit of the word, and the rest of it is in the operands. -/
theorem encodeOfDecodeStrict : Obligations.EncodeOfDecodeStrict := fun _ _ h =>
  ⟨(decode_ok_matchesRow h).wellFormed, (decode_ok_matchesRow h).encode_eq⟩

/-! ### Loose decode (30_encoding.md R88) -/

theorem decode_group0 {mode : SubopDecode} {w : Word} (hg : fieldG w = 0x0) : decode mode w = decodeGroup0 mode w := by
  simp only [decode, hg]; rfl

theorem decode_group5 {mode : SubopDecode} {w : Word} (hg : fieldG w = 0x5) : decode mode w =
    if mode = .loose ∨ fieldN w = 0 then .ok (.seReg (fieldX w) (fieldY w)) else .error (.unknownOpcode w) := by
  simp only [decode, hg]; rfl

theorem decode_group9 {mode : SubopDecode} {w : Word} (hg : fieldG w = 0x9) : decode mode w =
    if mode = .loose ∨ fieldN w = 0 then .ok (.sneReg (fieldX w) (fieldY w)) else .error (.unknownOpcode w) := by
  simp only [decode, hg]; rfl

theorem decode_loose_cls {w : Word} (hg : fieldG w = 0x0) (hn : fieldNN w = 0xE0) : decode .loose w = .ok .cls := by
  simp [decode_group0 hg, decodeGroup0, hn]

theorem decode_loose_ret {w : Word} (hg : fieldG w = 0x0) (hn : fieldNN w = 0xEE) : decode .loose w = .ok .ret := by
  simp [decode_group0 hg, decodeGroup0, hn]

theorem decode_loose_seReg {w : Word} (hg : fieldG w = 0x5) : decode .loose w = .ok (.seReg (fieldX w) (fieldY w)) := by
  rw [decode_group5 hg, if_pos (.inl rfl)]

theorem decode_loose_sneReg {w : Word} (hg : fieldG w = 0x9) : decode .loose w = .ok (.sneReg (fieldX w) (fieldY w)) := by
  rw [decode_group9 hg, if_pos (.inl rfl)]

theorem decode_loose_group0_unknown {w : Word} (hg : fieldG w = 0x0) (h0 : fieldNN w ≠ 0xE0) (hE : fieldNN w ≠ 0xEE) :
    decode .loose w = .error (.unknownOpcode w) := by
  rw [decode_group0 hg, decodeGroup0, if_pos (.inl rfl)]
  split
  case h_1 hn => exact absurd (BitVec.eq_of_toNat_eq hn) h0
  case h_2 hn => exact absurd (BitVec.eq_of_toNat_eq hn) hE
  case h_3 => rfl

/-- Only groups 0x0, 0x5 and 0x9 ask for the setting. -/
theorem decode_mode_irrelevant {w : Word} (h0 : fieldG w ≠ 0x0) (h5 : fieldG w ≠ 0x5) (h9 : fieldG w ≠ 0x9)
    (mode mode' : SubopDecode) : decode mode w = decode mode' w := by
  unfold decode
  split
  case h_1 hg => exact absurd (BitVec.eq_of_toNat_eq hg) h0
  case h_6 hg => exact absurd (BitVec.eq_of_toNat_eq hg) h5
  case h_10 hg => exact absurd (BitVec.eq_of_toNat_eq hg) h9
  all_goals rfl

/-- What strict decode must read, every setting reads the same. -/
theorem MatchesRow.decode_of_strict {w : Word} {i : Instr} (h : MatchesRow .strict w i) (mode : SubopDecode) :
    decode mode w = .ok i := by
  rw [← h.encode_eq]
  exact decode_encode mode h.wellFormed

/-- Settles O6: loose decode by group; a word that strict decode reads matches its row strictly. -/
theorem looseDecodeDiffersInThreeGroups : Obligations.LooseDecodeDiffersInThreeGroups := fun _ =>
  ⟨decode_loose_cls, decode_loose_ret, decode_loose_group0_unknown, decode_loose_seReg, decode_loose_sneReg,
    fun h0 h5 h9 => decode_mode_irrelevant h0 h5 h9 _ _, fun _ h => (decode_ok_matchesRow h).decode_of_strict .loose⟩

/-! ### The opcode map decides the dispatch (30_encoding.md R86) -/

/-- Only 00E0, 00EE, 5XY0 and 9XY0 have a looser mask; any other word that matches its row loosely matches it strictly. -/
theorem decode_of_matchesRow {mode : SubopDecode} {w : Word} {i : Instr} (h : MatchesRow mode w i) :
    decode mode w = .ok i := by
  cases mode with
  | strict => exact h.decode_of_strict .strict
  | loose =>
    cases i with
    | cls =>
      obtain ⟨hg, hn⟩ := fields_of_and_F0FF (g := 0x0) (nn := 0xE0) h.1
      exact decode_loose_cls hg hn
    | ret =>
      obtain ⟨hg, hn⟩ := fields_of_and_F0FF (g := 0x0) (nn := 0xEE) h.1
      exact decode_loose_ret hg hn
    | seReg => exact h.2 ▸ decode_loose_seReg (fieldG_of_and_F000 h.1)
    | sneReg => exact h.2 ▸ decode_loose_sneReg (fieldG_of_and_F000 h.1)
    | _ => exact (h.mode_irrelevant rfl .strict).decode_of_strict .loose

/-- Settles O4: the dispatch checks the row's digits and no more. -/
theorem dispatchMatchesOpcodeMap : Obligations.DispatchMatchesOpcodeMap := fun _ _ _ =>
  ⟨decode_ok_matchesRow, decode_of_matchesRow⟩

end Sys2Proof

/-! ### The step: fetch, decode, execute (20_memory.md R64, 30_encoding.md R80, R89) -/

namespace Sys2Proof.Machine

section

variable {s u : State} (hu : StepIssued s u)

include hu

/-- A Step executes the decoded instruction in the state with pc advanced (30_encoding.md R80). -/
theorem step_of_decode_ok {i : Instr} (hpc : u.pc.toNat ≤ 0x0FFE)
    (hd : decode u.config.subopDecode (u.readWord u.pc.toNat) = .ok i) :
    step s = exec i { u with pc := u.pc + 2, stepped := true } := by
  rw [step_of_stepIssued hu]
  rcases engineStep_cases u with ⟨hpc', -⟩ | ⟨-, e, hd', -⟩ | ⟨-, j, hd', he⟩
  · omega
  · simp [hd] at hd'
  · rw [hd] at hd'
    cases hd'
    exact he

/-- A word that decodes to nothing raises UnknownOpcode with the fetched word (30_encoding.md R89). -/
theorem step_of_decode_error {e : DecodeError} (hpc : u.pc.toNat ≤ 0x0FFE)
    (hd : decode u.config.subopDecode (u.readWord u.pc.toNat) = .error e) :
    step s = .next { u with
      pc := u.pc + 2, stepped := true,
      faults := u.faults ++ [{ kind := .unknownOpcode, ipc := u.pc, word := some (u.readWord u.pc.toNat) }] } := by
  rw [step_of_stepIssued hu]
  rcases engineStep_cases u with ⟨hpc', -⟩ | ⟨-, -, -, he⟩ | ⟨-, i, hd', -⟩
  · omega
  · rw [he, State.raise, State.currentWord, advance_ipc]
    rfl
  · simp [hd] at hd'

/-- A fetch out of range leaves pc and names the lowest address that is out of range (20_memory.md R64). -/
theorem step_of_fetch_error (hpc : 0x0FFE < u.pc.toNat) : step s = .next { u with
    stepped := true,
    faults := u.faults ++ [{ kind := .memoryOutOfBounds (max u.pc.toNat 0x1000), ipc := u.pc, word := none }] } := by
  rw [step_of_stepIssued hu]
  rcases engineStep_cases u with ⟨-, he⟩ | ⟨hpc', -⟩ | ⟨hpc', -⟩
  · exact he
  · omega
  · omega

end

/-- Settles O7: the three outcomes of a Step's fetch and decode; the address reported is the lowest out of range. -/
theorem stepRunsDecodedInstruction : Obligations.StepRunsDecodedInstruction := by
  rintro s u _ hu rfl
  refine ⟨fun i hpc hd => ⟨(decode_ok_matchesRow hd).wellFormed, step_of_decode_ok hu hpc hd⟩,
    fun e hpc hd => step_of_decode_error hu hpc hd, fun hpc => ?_, fun hpc => ?_⟩
  · rw [step_of_fetch_error hu (by omega), max_eq_left hpc]
  · rw [step_of_fetch_error hu (by omega), hpc]
    rfl

end Sys2Proof.Machine

/-! ### The unknown words (30_encoding.md R89) -/

namespace Sys2Proof

theorem decodeGroup0_strict_unknown_iff {w : Word} (hg : (fieldG w).toNat = 0) :
    decodeGroup0 .strict w = .error (.unknownOpcode w) ↔ w ≠ 0x00E0 ∧ w ≠ 0x00EE := by
  unfold decodeGroup0
  split
  · rename_i hx
    split
    case h_1 hn =>
      exact iff_of_false nofun fun h => h.1 (eq_wordXB_of_group0 hg (hx.resolve_left nofun) hn)
    case h_2 hn =>
      exact iff_of_false nofun fun h => h.2 (eq_wordXB_of_group0 hg (hx.resolve_left nofun) hn)
    case h_3 h0 hE => exact iff_of_true rfl ⟨fun h => h0 (h ▸ rfl), fun h => hE (h ▸ rfl)⟩
  · rename_i hx
    exact iff_of_true rfl ⟨fun h => hx (.inr (h ▸ rfl)), fun h => hx (.inr (h ▸ rfl))⟩

theorem decodeGroup8_unknown_iff {w : Word} :
    decodeGroup8 w = .error (.unknownOpcode w) ↔ fieldN w ∈ [0x8, 0x9, 0xA, 0xB, 0xC, 0xD, 0xF] := by
  have hlt : fieldN w < 16 := (w.extractLsb' 0 4).isLt
  unfold decodeGroup8
  split
  case h_10 =>
    simp only [imp_false, List.mem_cons, List.not_mem_nil, true_iff] at *
    omega
  all_goals simp [*]

theorem decodeGroupE_unknown_iff {w : Word} :
    decodeGroupE w = .error (.unknownOpcode w) ↔ fieldNN w ∉ [0x9E#8, 0xA1#8] := by
  unfold decodeGroupE
  split <;> simp_all [← BitVec.toNat_inj]

theorem decodeGroupF_unknown_iff {w : Word} : decodeGroupF w = .error (.unknownOpcode w) ↔
    fieldNN w ∉ [0x07#8, 0x0A#8, 0x15#8, 0x18#8, 0x1E#8, 0x29#8, 0x33#8, 0x55#8, 0x65#8] := by
  unfold decodeGroupF
  split <;> simp_all [← BitVec.toNat_inj]

theorem decode_strict_unknown_iff {w : Word} : decode .strict w = .error (.unknownOpcode w) ↔
    (fieldG w = 0x0 ∧ w ≠ 0x00E0 ∧ w ≠ 0x00EE) ∨
    ((fieldG w = 0x5 ∨ fieldG w = 0x9) ∧ fieldN w ≠ 0) ∨
    (fieldG w = 0x8 ∧ fieldN w ∈ [0x8, 0x9, 0xA, 0xB, 0xC, 0xD, 0xF]) ∨
    (fieldG w = 0xE ∧ fieldNN w ∉ [0x9E#8, 0xA1#8]) ∨
    (fieldG w = 0xF ∧ fieldNN w ∉ [0x07#8, 0x0A#8, 0x15#8, 0x18#8, 0x1E#8, 0x29#8, 0x33#8, 0x55#8, 0x65#8]) := by
  rw [← decodeGroup8_unknown_iff, ← decodeGroupE_unknown_iff, ← decodeGroupF_unknown_iff]
  unfold decode
  split <;> rename_i hg
  case h_1 => simp [decodeGroup0_strict_unknown_iff hg, hg, ← BitVec.toNat_inj]
  case h_17 =>
    have := (fieldG w).isLt
    simp only [imp_false] at *
    omega
  all_goals simp [hg, ← BitVec.toNat_inj]

/-- A word of each group that encodes an instruction (30_encoding.md R89). -/
def sampleOfGroup (g : BitVec 4) : Word :=
  wordXB g 0 (if g = 0x0 then 0xE0 else if g = 0xE then 0x9E else if g = 0xF then 0x07 else 0x00)

theorem decode_sampleOfGroup (g : BitVec 4) : ∃ i, decode .strict (sampleOfGroup g) = .ok i := by
  have hok : ∀ g, (decode .strict (sampleOfGroup g)).isOk = true := by decide
  cases hd : decode .strict (sampleOfGroup g) with
  | ok i => exact ⟨i, rfl⟩
  | error e => exact absurd (hok g) (by rw [hd]; nofun)

end Sys2Proof

namespace Sys2Proof.Machine

/-- Settles O5: the unknown words group by group, a known word of each group, and the Step's error. -/
theorem unknownWordsUnderStrictDecode : Obligations.UnknownWordsUnderStrictDecode := by
  refine ⟨fun _ => decode_strict_unknown_iff, fun g => ?_, fun _ _ hu => step_of_decode_error hu⟩
  obtain ⟨i, hi⟩ := decode_sampleOfGroup g
  exact ⟨sampleOfGroup g, i, fieldG_wordXB _ _ _, hi⟩

end Sys2Proof.Machine

namespace Sys2Proof

/-- Settles O1: the decoder, run on the eight words. -/
theorem sampleWordsDecode : Obligations.SampleWordsDecode := by
  unfold Obligations.SampleWordsDecode
  decide

end Sys2Proof

/-! ### Control transfer (40_flow.md R100 to R108) -/

namespace Sys2Proof.Machine

open Host (Outcome)

/-! ### Words of the map, and a fetch that is out of range -/

/-- An instruction whose row has one mask for both settings is read from every word with the row's digits
(30_encoding.md R86). -/
theorem encodedAs_of_row {p m : Word} {mk : Word → Instr} (hrow : ∀ w, (mk w).row = .both p m)
    (hfields : ∀ w, (mk w).withFields w = mk w) : EncodedAs p m mk :=
  fun _ w hw => decode_of_matchesRow (matchesRow_of_both (hrow w) hw (hfields w))

/-- A Step issued where nothing can be fetched names the lowest address out of range (20_memory.md R64). -/
theorem step_of_unfetchable_pc {t u : State} (hu : StepIssued t u) (hpc : 0x0FFF ≤ t.pc.toNat) : step t = .next { u with
    stepped := true,
    faults := u.faults ++ [{ kind := .memoryOutOfBounds (max t.pc.toNat 0x1000), ipc := u.pc, word := none }] } := by
  obtain ⟨rest, rfl⟩ := hu.exists_host
  exact step_of_fetch_error hu hpc

/-- Settles O9: the target is NNN, and 0xFFF leaves the second byte of the next fetch out of range. -/
theorem jumpSetsPc : Obligations.JumpSetsPc := by
  refine ⟨encodedAs_of_row (fun _ => rfl) (fun _ => rfl), fun s nnn => ⟨_, rfl, addrWord_toNat nnn, rfl, ?_⟩⟩
  rintro u hu rfl
  exact step_of_unfetchable_pc hu (addrWord_toNat 0xFFF).ge

/-- Settles O10: the sum is not reduced, and from 0x0FFF on it cannot be fetched from. -/
theorem indexedJumpAddsRegisterZero : Obligations.IndexedJumpAddsRegisterZero := by
  refine ⟨encodedAs_of_row (fun _ => rfl) (fun _ => rfl), fun s nnn => ?_⟩
  have htarget := addrWord_add_regWord_toNat s nnn 0
  have := nnn.isLt
  have := (s.reg 0).isLt
  exact ⟨_, rfl, htarget, htarget.trans_le (by omega), rfl, fun u => step_of_unfetchable_pc⟩

/-! ### The call stack -/

theorem exec_ret_of_pos {s : State} (h : 0 < s.sp.val) :
    exec .ret s = .next { s with sp := ⟨s.sp.val - 1, by omega⟩, pc := s.stack[s.sp.val - 1] } := by
  rcases execRet_cases s with ⟨_, he⟩ | ⟨h0, -⟩
  · exact he
  · omega

theorem raises_ret_of_empty {s : State} (h : s.sp.val = 0) : Raises .ret s .stackUnderflow := by
  rcases execRet_cases s with ⟨hpos, -⟩ | ⟨-, he⟩
  · omega
  · exact he

theorem exec_call_of_lt {s : State} (h : s.sp.val < 32) (nnn : Addr12) : exec (.call nnn) s = .next { s with
    stack := s.stack.set s.sp.val s.pc, sp := ⟨s.sp.val + 1, by omega⟩, pc := addrWord nnn } := by
  rcases execCall_cases nnn s with ⟨_, he⟩ | ⟨hfull, -⟩
  · exact he
  · omega

theorem raises_call_of_full {s : State} (h : s.sp.val = 32) (nnn : Addr12) : Raises (.call nnn) s .stackOverflow := by
  rcases execCall_cases nnn s with ⟨hlt, -⟩ | ⟨-, he⟩
  · omega
  · exact he

/-- Strict decode leaves no digit of 00EE free (30_encoding.md R86). -/
theorem eq_of_decode_strict_ret {w : Word} (h : decode .strict w = .ok .ret) : w = 0x00EE :=
  (decode_ok_matchesRow h).encode_eq.symm

/-- Settles O8: 00EE pops a live entry, or finds none. -/
theorem returnPopsCallStack : Obligations.ReturnPopsCallStack := by
  refine ⟨⟨decode_encode .strict (i := .ret) rfl, fun w hne h => hne (eq_of_decode_strict_ret h)⟩,
    fun s => ⟨fun h => ⟨_, exec_ret_of_pos h, Nat.sub_add_cancel h, ?_, rfl⟩, raises_ret_of_empty⟩⟩
  rintro ⟨_, _⟩ rfl
  rfl

/-- Settles O11: 2NNN pushes pc below the new stack pointer, or finds no room. -/
theorem callPushesReturnAddress : Obligations.CallPushesReturnAddress := by
  refine ⟨encodedAs_of_row (fun _ => rfl) (fun _ => rfl),
    fun s nnn => ⟨fun h => ⟨_, exec_call_of_lt h nnn, rfl, addrWord_toNat nnn, fun k => ?_, rfl⟩,
      fun h => raises_call_of_full h nnn⟩⟩
  simp only [Fin.getElem_fin, Vector.getElem_set, eq_comm]

/-- Settles O12: the return pops the entry that the call pushed. -/
theorem callThenReturnComesBack : Obligations.CallThenReturnComesBack := by
  intro s t nnn p hlt hcall
  rw [exec_call_of_lt hlt] at hcall
  obtain rfl := next_inj hcall
  exact ⟨_, exec_ret_of_pos (Nat.succ_pos _), Vector.getElem_set_self _, rfl, rfl⟩

/-! ### Skips -/

theorem State.skipIf_beq (s : State) (a b : Byte) :
    s.skipIf (a == b) = { s with pc := if a.toNat = b.toNat then s.pc + 2 else s.pc } := by
  simp only [State.skipIf_eq, beq_iff_eq, BitVec.toNat_inj]

theorem State.skipIf_bne (s : State) (a b : Byte) :
    s.skipIf (a != b) = { s with pc := if a.toNat = b.toNat then s.pc else s.pc + 2 } := by
  simp only [State.skipIf_eq, bne_iff_ne, ite_not, BitVec.toNat_inj, ne_eq]

/-- Settles O13: both are skips on one comparison with the immediate. -/
theorem immediateSkips : Obligations.ImmediateSkips :=
  ⟨encodedAs_of_row (fun _ => rfl) (fun _ => rfl), encodedAs_of_row (fun _ => rfl) (fun _ => rfl), fun s _ _ =>
    ⟨congrArg Outcome.next (s.skipIf_beq _ _), congrArg Outcome.next (s.skipIf_bne _ _)⟩⟩

/-- Settles O14: both are skips on one comparison of the registers; their rows' masks differ between the settings. -/
theorem registerSkips : Obligations.RegisterSkips := by
  refine ⟨fun mode w hw => decode_of_matchesRow ⟨?_, rfl⟩, fun mode w hw => decode_of_matchesRow ⟨?_, rfl⟩,
    fun w hg hn => decode_strict_unknown_iff.mpr (.inr (.inl ⟨hg, hn⟩)),
    fun s x y => ⟨congrArg Outcome.next (s.skipIf_beq _ _), congrArg Outcome.next (s.skipIf_bne _ _)⟩⟩
  · cases mode <;> exact hw
  · cases mode <;> exact hw

/-- A skip is decided by one condition on registers and keys, whatever memory holds (40_flow.md R100). -/
theorem skip_condition {i : Instr}
    (hi : ∃ x y nn, i ∈ [Instr.seImm x nn, .sneImm x nn, .seReg x y, .sneReg x y, .skp x, .sknp x])
    (s : State) : ∃ c : Bool, ∀ m : Memory, checkOf { s with mem := m } i = checkOf s i ∧
      effectOf { s with mem := m } i = { s with mem := m, pc := if c then s.pc + 2 else s.pc } := by
  simp only [List.mem_cons, List.not_mem_nil, or_false] at hi
  obtain ⟨x, y, nn, rfl | rfl | rfl | rfl | rfl | rfl⟩ := hi
  · exact ⟨s.reg x == nn, fun _ => ⟨rfl, rfl⟩⟩
  · exact ⟨s.reg x != nn, fun _ => ⟨rfl, rfl⟩⟩
  · exact ⟨s.reg x == s.reg y, fun _ => ⟨rfl, rfl⟩⟩
  · exact ⟨s.reg x != s.reg y, fun _ => ⟨rfl, rfl⟩⟩
  · exact ⟨s.key (s.reg x).toNat, fun _ => ⟨rfl, rfl⟩⟩
  · exact ⟨!s.key (s.reg x).toNat, fun _ => ⟨rfl, rfl⟩⟩

/-- Settles O15: with no record added the check has passed, with any memory, and the condition decides pc. -/
theorem skipAddsTwoWhateverIsSkipped : Obligations.SkipAddsTwoWhateverIsSkipped := by
  intro s t i m hi h hf
  obtain ⟨c, hc⟩ := skip_condition hi s
  rcases exec_cases h with ⟨e, -, rfl⟩ | ⟨hcheck, rfl⟩
  · simp at hf
  have heff : effectOf s i = { s with pc := if c then s.pc + 2 else s.pc } := (hc s.mem).2
  refine ⟨?_, ?_, ?_⟩
  · rw [heff]
    exact ite_eq_or_eq ..
  · rw [heff]
  · rw [exec_eq, (hc m).1, hcheck, (hc m).2, heff]
    rfl

end Sys2Proof.Machine

/-! ### Registers, arithmetic, logic, shifts and random (41_alu.md R120 to R137) -/

namespace Sys2Proof.Machine

/-! ### What a register holds after a write -/

section
variable {s : State} {x r : RegIdx} {v : Byte} {f : Bool}

theorem State.reg_setReg_of_ne (h : r ≠ x) : (s.setReg x v).reg r = s.reg r := by
  rw [State.reg_setReg, if_neg h.symm]

@[simp] theorem State.reg_setRegFlag_flag : (s.setRegFlag x v f).reg 15 = flagByte f := by
  rw [State.reg_setRegFlag, if_pos rfl]

theorem State.reg_setRegFlag_result (h : x ≠ 15) : (s.setRegFlag x v f).reg x = v := by
  rw [State.reg_setRegFlag, if_neg h, if_pos rfl]

theorem State.reg_setRegFlag_of_ne (hx : r ≠ x) (hflag : r ≠ 15) : (s.setRegFlag x v f).reg r = s.reg r := by
  rw [State.reg_setRegFlag, if_neg hflag, if_neg hx.symm]

end

/-! ### Results and flags as numbers -/

theorem wideSum_toNat (a b : Byte) : (wideSum a b).toNat = a.toNat + b.toNat := by
  have ha := a.isLt
  have hb := b.isLt
  rw [wideSum, BitVec.toNat_add, BitVec.toNat_setWidth, BitVec.toNat_setWidth]
  omega

theorem flagByte_carryOut (a b : Byte) : flagByte (carryOut a b) = if 255 < a.toNat + b.toNat then 1 else 0 := by
  simp only [flagByte, carryOut, wideSum_toNat, decide_eq_true_eq]

theorem flagByte_noBorrow (a b : Byte) : flagByte (noBorrow a b) = if b.toNat ≤ a.toNat then 1 else 0 := by
  simp only [flagByte, noBorrow, decide_eq_true_eq]

theorem flagByte_toNat (f : Bool) : (flagByte f).toNat = f.toNat := by
  cases f <;> rfl

theorem flagByte_lowBitOut_toNat (v : Byte) : (flagByte (lowBitOut v)).toNat = v.toNat % 2 := by
  have hbit : (lowBitOut v).toNat = v.toNat / 2 ^ 0 % 2 := Nat.toNat_testBit v.toNat 0
  rw [flagByte_toNat, hbit]
  omega

theorem flagByte_highBitOut_toNat (v : Byte) : (flagByte (highBitOut v)).toNat = v.toNat / 128 := by
  have hbit : (highBitOut v).toNat = v.toNat / 2 ^ 7 % 2 := Nat.toNat_testBit v.toNat 7
  have hv := v.isLt
  rw [flagByte_toNat, hbit]
  omega

theorem byte_sub_toNat (a b : Byte) : (a - b).toNat = (a.toNat + 256 - b.toNat) % 256 := by
  have hb := b.isLt
  rw [BitVec.toNat_sub]
  omega

/-! ### One result, no flag -/

/-- Settles O16: each writes its operand to x[X]. -/
theorem registerLoads : Obligations.RegisterLoads :=
  ⟨encodedAs_of_row (fun _ => rfl) (fun _ => rfl), encodedAs_of_row (fun _ => rfl) (fun _ => rfl), fun _ _ _ _ =>
    ⟨⟨_, rfl, State.reg_setReg_self .., fun _ => State.reg_setReg_of_ne, rfl⟩,
      ⟨_, rfl, State.reg_setReg_self .., fun _ => State.reg_setReg_of_ne, rfl⟩⟩⟩

/-- Settles O17: the sum of two bytes is the sum of their values modulo 256. -/
theorem addImmediateWritesNoFlag : Obligations.AddImmediateWritesNoFlag := by
  refine ⟨encodedAs_of_row (fun _ => rfl) (fun _ => rfl), fun s x nn =>
    ⟨_, rfl, ?_, fun _ => State.reg_setReg_of_ne, rfl⟩⟩
  rw [State.reg_setReg_self, BitVec.toNat_add]

/-- Settles O18: the operations on bytes act on each bit. -/
theorem logicIsBitwiseWithoutFlag : Obligations.LogicIsBitwiseWithoutFlag := by
  refine ⟨encodedAs_of_row (fun _ => rfl) (fun _ => rfl), encodedAs_of_row (fun _ => rfl) (fun _ => rfl),
    encodedAs_of_row (fun _ => rfl) (fun _ => rfl), fun s x y =>
      ⟨⟨_, rfl, fun b => ?_, fun _ => State.reg_setReg_of_ne, rfl⟩,
        ⟨_, rfl, fun b => ?_, fun _ => State.reg_setReg_of_ne, rfl⟩,
        ⟨_, rfl, fun b => ?_, fun _ => State.reg_setReg_of_ne, rfl⟩⟩⟩
  · rw [State.reg_setReg_self, BitVec.getLsbD_or]
  · rw [State.reg_setReg_self, BitVec.getLsbD_and]
  · rw [State.reg_setReg_self, BitVec.getLsbD_xor]

/-! ### A result, then a flag -/

/-- Settles O19: the exact sum decides the carry, and its low byte is the result. -/
theorem addRegistersSetsCarry : Obligations.AddRegistersSetsCarry := by
  refine ⟨encodedAs_of_row (fun _ => rfl) (fun _ => rfl), fun s x y =>
    ⟨_, rfl, fun hx => ?_, ?_, fun _ => State.reg_setRegFlag_of_ne, rfl⟩⟩
  · rw [State.reg_setRegFlag_result hx, BitVec.toNat_setWidth, wideSum_toNat]
  · rw [State.reg_setRegFlag_flag, flagByte_carryOut]

/-- Both subtractions of registers are one subtraction, with the operands in either order (41_alu.md R127, R128). -/
theorem exec_subtraction {i : Instr} {s : State} {x : RegIdx} {a b : Byte}
    (h : exec i s = .next (s.setRegFlag x (a - b) (noBorrow a b))) : ∃ t, exec i s = .next t ∧
      (x ≠ 15 → (t.reg x).toNat = (a.toNat + 256 - b.toNat) % 256) ∧
      t.reg 15 = (if b.toNat ≤ a.toNat then 1 else 0) ∧
      (∀ r, r ≠ x → r ≠ 15 → t.reg r = s.reg r) ∧ t = { s with x := t.x } := by
  refine ⟨_, h, fun hx => ?_, ?_, fun _ => State.reg_setRegFlag_of_ne, rfl⟩
  · rw [State.reg_setRegFlag_result hx, byte_sub_toNat]
  · rw [State.reg_setRegFlag_flag, flagByte_noBorrow]

/-- Settles O20: x[X] - x[Y] and x[Y] - x[X]. -/
theorem subtractionsSetNoBorrow : Obligations.SubtractionsSetNoBorrow :=
  ⟨encodedAs_of_row (fun _ => rfl) (fun _ => rfl), encodedAs_of_row (fun _ => rfl) (fun _ => rfl), fun _ _ _ =>
    ⟨exec_subtraction rfl, exec_subtraction rfl⟩⟩

/-- Settles O21: the quotient and the remainder of x[Y] by 2, or the low byte and the high bit of its double. -/
theorem shiftsTakeTheirOperandFromY : Obligations.ShiftsTakeTheirOperandFromY := by
  refine ⟨encodedAs_of_row (fun _ => rfl) (fun _ => rfl), encodedAs_of_row (fun _ => rfl) (fun _ => rfl), fun s x y =>
    ⟨⟨_, rfl, fun hx => ?_, ?_, fun _ => State.reg_setRegFlag_of_ne, rfl⟩,
      ⟨_, rfl, fun hx => ?_, ?_, fun _ => State.reg_setRegFlag_of_ne, rfl⟩⟩⟩
  · rw [State.reg_setRegFlag_result hx, BitVec.toNat_ushiftRight, Nat.shiftRight_eq_div_pow, pow_one]
  · rw [State.reg_setRegFlag_flag, flagByte_lowBitOut_toNat]
  · rw [State.reg_setRegFlag_result hx, BitVec.toNat_shiftLeft, Nat.shiftLeft_eq, pow_one]
  · rw [State.reg_setRegFlag_flag, flagByte_highBitOut_toNat]

/-! ### The Random Source -/

theorem ofNat_mul_two_pow {w : Nat} (p : BitVec w) (k : Nat) : BitVec.ofNat w (p.toNat * 2 ^ k) = p <<< k := by
  apply BitVec.eq_of_toNat_eq
  rw [BitVec.toNat_ofNat, BitVec.toNat_shiftLeft, Nat.shiftLeft_eq]

theorem ofNat_div_two_pow {w : Nat} (p : BitVec w) (k : Nat) : BitVec.ofNat w (p.toNat / 2 ^ k) = p >>> k := by
  rw [← Nat.shiftRight_eq_div_pow, ← BitVec.toNat_ushiftRight, BitVec.ofNat_toNat, BitVec.setWidth_eq]

theorem xorshift_zero : xorshift 0 = 0 := by decide

theorem xorshift_four : xorshift 4 = 0x00108084 := by decide

/-- What CXNN leaves in x[X] (41_alu.md R131). -/
theorem State.reg_setReg_nextRandom (s : State) (x : RegIdx) (nn : Byte) :
    (s.nextRandom.2.setReg x (nn &&& s.nextRandom.1)).reg x = nn &&& (xorshift s.prng).setWidth 8 :=
  State.reg_setReg_self ..

/-- Settles O22: shifts are multiplications and divisions by powers of two, and two values of the generator are computed. -/
theorem randomAdvancesXorshift : Obligations.RandomAdvancesXorshift := by
  refine ⟨encodedAs_of_row (fun _ => rfl) (fun _ => rfl), fun s x nn =>
    ⟨_, _, _, rfl, rfl, rfl, ?_, ?_, fun _ => State.reg_setReg_of_ne, rfl, fun h => ?_, fun h => ?_⟩⟩
  · simp only [ofNat_mul_two_pow, ofNat_div_two_pow]
    rfl
  · rw [State.reg_setReg_nextRandom, BitVec.toNat_and, BitVec.toNat_setWidth]
    rfl
  · rw [State.reg_setReg_nextRandom, State.setReg_prng, State.nextRandom_prng, h, xorshift_zero]
    exact ⟨rfl, BitVec.and_zero⟩
  · rw [State.reg_setReg_nextRandom, State.setReg_prng, State.nextRandom_prng, h, xorshift_four]
    exact ⟨rfl, rfl⟩

end Sys2Proof.Machine

/-! ### The index register and memory transfers (42_index_memory.md R150 to R156) -/

namespace Sys2Proof.Machine

/-! ### I -/

/-- The sum of FX1E is reduced modulo 2^16 and no further (42_index_memory.md R151). -/
theorem add_regWord_toNat (s : State) (i : Word) (r : RegIdx) :
    (i + s.regWord r).toNat = (i.toNat + (s.reg r).toNat) % 65536 := by
  have hr := (s.reg r).isLt
  rw [BitVec.toNat_add, State.regWord, BitVec.toNat_setWidth]
  omega

/-- The glyph address of any byte fits in 16 bits (42_index_memory.md R152). -/
theorem glyphAddr_toNat (v : Byte) : (glyphAddr v).toNat = 0x050 + 5 * v.toNat := by
  have hv := v.isLt
  rw [glyphAddr, BitVec.toNat_ofNat, fontBase]
  omega

/-- Settles O23: NNN and the glyph address fit in 16 bits, and the sum of FX1E is reduced to them. -/
theorem indexRegisterLoads : Obligations.IndexRegisterLoads :=
  ⟨encodedAs_of_row (fun _ => rfl) (fun _ => rfl), encodedAs_of_row (fun _ => rfl) (fun _ => rfl),
    encodedAs_of_row (fun _ => rfl) (fun _ => rfl), fun s x nnn =>
      ⟨⟨_, rfl, addrWord_toNat nnn, rfl⟩, ⟨_, rfl, add_regWord_toNat s s.i x, rfl⟩,
        ⟨_, rfl, glyphAddr_toNat (s.reg x), rfl⟩⟩⟩

/-! ### The two outcomes of an instruction with a check -/

theorem exec_of_checkOf_none {i : Instr} {s : State} (h : checkOf s i = none) : exec i s = .next (effectOf s i) := by
  rw [exec_eq, h, State.guarded_none]

theorem raises_of_checkOf_some {i : Instr} {s : State} {e : ErrorKind} (h : checkOf s i = some e) : Raises i s e := by
  rw [Raises, exec_eq, h, State.guarded_some, State.raise_eq]

/-! ### The checks of the block at I, I + 1, …, I + n -/

section
variable {s : State} {n : Nat}

theorem State.checkBounds_block_eq_none (h : s.i.toNat + n < 0x1000) : s.checkBounds (n + 1) = none :=
  State.checkBounds_eq_none.mpr (.inr h)

theorem State.checkBounds_block_eq_some (h : 0x1000 ≤ s.i.toNat + n) :
    s.checkBounds (n + 1) = some (.memoryOutOfBounds (max s.i.toNat 0x1000)) :=
  State.checkBounds_eq_some.mpr ⟨n.succ_ne_zero, Nat.lt_succ_of_le h, rfl⟩

/-- A block that touches the protected font is reported at its lowest font address (20_memory.md R69). -/
theorem State.checkFont_block_eq_some (hw : s.config.fontWritable = false) (hlow : 0x050 ≤ s.i.toNat + n)
    (hhigh : s.i.toNat < 0x0A0) : s.checkFont (n + 1) = some (.immutableWrite (max s.i.toNat 0x050)) := by
  have hlowest : lowestWhere inFont s.i.toNat (n + 1) = some (max s.i.toNat 0x050) := by
    refine lowestWhere_eq_some.mpr ⟨by omega, by omega, inFont_iff.mpr (by omega), fun k _ _ => ?_⟩
    rw [← Bool.not_eq_true, inFont_iff]
    omega
  rw [State.checkFont, hw, hlowest]
  rfl

end

/-! ### FX33 and FX55: a store of the block -/

section
variable {s : State} {i : Instr} {n : Nat} (hcheck : checkOf s i = s.checkStore (n + 1))
include hcheck

theorem exec_store_of_allowed (hin : s.i.toNat + n < 0x1000)
    (hfont : s.config.fontWritable = true ∨ s.i.toNat + n < 0x050 ∨ 0x0A0 ≤ s.i.toNat) :
    exec i s = .next (effectOf s i) := by
  have hmiss : s.checkFont (n + 1) = none := State.checkFont_eq_none.mpr (hfont.imp_right .inr)
  exact exec_of_checkOf_none
    (hcheck.trans (State.checkStore_eq_none.mpr ⟨State.checkBounds_block_eq_none hin, hmiss⟩))

theorem raises_store_of_outOfSpace (hout : 0x1000 ≤ s.i.toNat + n) :
    Raises i s (.memoryOutOfBounds (max s.i.toNat 0x1000)) := by
  apply raises_of_checkOf_some
  rw [hcheck, State.checkStore, State.checkBounds_block_eq_some hout]

/-- A block of at most 16 bytes that touches the font lies inside the memory, so the font check decides. -/
theorem raises_store_of_protected (hn : n < 16) (hw : s.config.fontWritable = false) (hlow : 0x050 ≤ s.i.toNat + n)
    (hhigh : s.i.toNat < 0x0A0) : Raises i s (.immutableWrite (max s.i.toNat 0x050)) := by
  have hin : s.checkBounds (n + 1) = none := State.checkBounds_block_eq_none (by omega)
  apply raises_of_checkOf_some
  rw [hcheck, State.checkStore, hin]
  exact State.checkFont_block_eq_some hw hlow hhigh

end

theorem State.readByte_storeBytes_offset (s : State) (a : Nat) {vs : List Byte} {k : Nat} (hk : k < vs.length) :
    (s.storeBytes a vs).readByte (a + k) = vs[k] := by
  rw [State.readByte_storeBytes, dif_pos ⟨Nat.le_add_right a k, Nat.add_lt_add_left hk a⟩]
  simp only [Nat.add_sub_cancel_left]

theorem State.readByte_storeBytes_outside (s : State) {a b : Nat} {vs : List Byte} (h : b < a ∨ a + vs.length ≤ b) :
    (s.storeBytes a vs).readByte b = s.readByte b := by
  rw [State.readByte_storeBytes, dif_neg (by omega)]

/-- The byte `k` places after the hundreds is the digit of `10 ^ (2 - k)` (42_index_memory.md R153). -/
theorem decimalDigits_getElem_toNat (v : Byte) {k : Nat} (hk : k < (decimalDigits v).length) :
    (decimalDigits v)[k].toNat = v.toNat / 10 ^ (2 - k) % 10 := by
  have hv := v.isLt
  match k, hk with
  | 0, _ | 1, _ | 2, _ =>
    simp only [decimalDigits, List.getElem_cons_zero, List.getElem_cons_succ, BitVec.toNat_ofNat]
    omega

theorem readByte_effectOf_ldB (s : State) (x : RegIdx) {k : Nat} (hk : k < 3) :
    ((effectOf s (.ldB x)).readByte (s.i.toNat + k)).toNat = (s.reg x).toNat / 10 ^ (2 - k) % 10 := by
  rw [effectOf, s.readByte_storeBytes_offset s.i.toNat (vs := decimalDigits (s.reg x)) hk]
  exact decimalDigits_getElem_toNat _ hk

/-- Settles O24: a store of the three digits, of which the hundreds digit is at most 2. -/
theorem decimalDigitsStored : Obligations.DecimalDigitsStored := by
  refine ⟨encodedAs_of_row (fun _ => rfl) (fun _ => rfl), fun s x =>
    ⟨fun hin hfont => ⟨_, exec_store_of_allowed rfl hin hfont, ?_, ?_, ?_, fun a ha => ?_, rfl⟩,
      raises_store_of_outOfSpace rfl, raises_store_of_protected rfl (by decide)⟩⟩
  · have hx := (s.reg x).isLt
    exact (readByte_effectOf_ldB s x (k := 0) (by decide)).trans (Nat.mod_eq_of_lt (by omega))
  · exact readByte_effectOf_ldB s x (k := 1) (by decide)
  · exact (readByte_effectOf_ldB s x (k := 2) (by decide)).trans (congrArg (· % 10) (Nat.div_one _))
  · exact s.readByte_storeBytes_outside ha

/-- Settles O25: a store of the first X + 1 registers. -/
theorem registerBlockStored : Obligations.RegisterBlockStored := by
  refine ⟨encodedAs_of_row (fun _ => rfl) (fun _ => rfl), fun s x =>
    ⟨fun hin hfont => ⟨_, exec_store_of_allowed rfl hin hfont, fun k => readByte_effectOf_ldMemVx s, fun a ha => ?_, rfl⟩,
      raises_store_of_outOfSpace rfl, raises_store_of_protected rfl x.isLt⟩⟩
  apply s.readByte_storeBytes_outside
  rwa [State.firstRegs_length]

/-! ### FX65: a load of the block -/

/-- FX65 fills the registers up to X and keeps the rest (42_index_memory.md R155). -/
theorem reg_effectOf_ldVxMem (s : State) (x r : RegIdx) :
    (effectOf s (.ldVxMem x)).reg r = if r ≤ x then s.readByte (s.i.toNat + r.val) else s.reg r := by
  simp only [Fin.le_def, ← Nat.lt_succ_iff]
  exact s.loadedRegs_getElem (blockLength x) r

/-- Settles O26: a load of the first X + 1 registers, with the bounds check alone. -/
theorem registerBlockLoaded : Obligations.RegisterBlockLoaded := by
  refine ⟨encodedAs_of_row (fun _ => rfl) (fun _ => rfl), fun s x =>
    ⟨fun hin => ⟨_, exec_of_checkOf_none (State.checkBounds_block_eq_none hin), fun k hk => ?_, fun k hk => ?_, rfl⟩,
      fun hout => raises_of_checkOf_some (State.checkBounds_block_eq_some hout)⟩⟩
  · rw [reg_effectOf_ldVxMem, if_pos hk]
  · rw [reg_effectOf_ldVxMem, if_neg (Fin.not_le.mpr hk)]

end Sys2Proof.Machine

/-! ### The display (43_display.md R170 to R176)

`State.covers` is the set of pixels under a sprite's 1 bits, with the rows and columns of R171 in `State.covers_iff`. DXYN flips
those pixels and writes the flag last; the laws of Laws/Screen.lean say so of the drawing itself. -/

namespace Sys2Proof.Machine

/-! ### 00E0 -/

/-- Strict decode leaves no digit of 00E0 free (30_encoding.md R86). -/
theorem eq_of_decode_strict_cls {w : Word} (h : decode .strict w = .ok .cls) : w = 0x00E0 :=
  (decode_ok_matchesRow h).encode_eq.symm

/-- Settles O28: the display that 00E0 leaves is blank. -/
theorem clearTurnsEveryPixelOff : Obligations.ClearTurnsEveryPixelOff :=
  ⟨decode_encode .strict (i := .cls) rfl, fun _ hne h => hne (eq_of_decode_strict_cls h),
    fun _ => ⟨_, rfl, dispGet_dispClear, rfl⟩⟩

/-! ### The pixels under a sprite's 1 bits -/

/-- A row's bit at column `px`, by the number of the column in the row. -/
theorem rowBit_iff {x0 px : Nat} {row : Byte} :
    rowBit x0 row 8 px = true ↔ ∃ col < 8, px = x0 + col ∧ row.getLsbD (7 - col) = true := by
  rw [rowBit, Bool.and_eq_true, decide_eq_true_eq]
  constructor
  · rintro ⟨hpx, hbit⟩
    exact ⟨px - x0, by omega, by omega, hbit⟩
  · rintro ⟨col, hcol, rfl, hbit⟩
    exact ⟨by omega, by rwa [Nat.add_sub_cancel_left]⟩

/-- A sprite's bit at a pixel, by the number of the row in the sprite. -/
theorem spriteBit_iff {x0 y0 px py : Nat} {rows : List Byte} :
    spriteBit x0 y0 rows px py = true ↔ ∃ r, ∃ hr : r < rows.length, py = y0 + r ∧ rowBit x0 rows[r] 8 px = true := by
  rw [spriteBit_eq]
  constructor
  · intro h
    split at h
    · next hpy => exact ⟨py - y0, by omega, by omega, h⟩
    · cases h
  · rintro ⟨r, hr, rfl, hbit⟩
    rw [dif_pos (by omega)]
    simpa only [Nat.add_sub_cancel_left] using hbit

/-- Whether the `n`-row sprite at I, drawn from (x[X] mod 64, x[Y] mod 32), has a 1 bit at a pixel of the grid. -/
def State.covers (s : State) (x y : RegIdx) (n : Nat) (px : Fin 64) (py : Fin 32) : Bool :=
  spriteBit (s.spriteX x) (s.spriteY y) (s.spriteBytes n) px.val py.val

/-- The covered pixels by row and column of the sprite, bit 7 leftmost, neither coordinate wrapped (43_display.md R171,
R172, R175). -/
theorem State.covers_iff {s : State} {x y : RegIdx} {n : Nat} {px : Fin 64} {py : Fin 32} :
    s.covers x y n px py = true ↔ ∃ r col : Nat, r < n ∧ col < 8 ∧
      px.val = (s.reg x).toNat % 64 + col ∧ py.val = (s.reg y).toNat % 32 + r ∧
      (s.readByte (s.i.toNat + r)).getLsbD (7 - col) = true := by
  simp only [State.covers, spriteBit_iff, rowBit_iff, State.spriteBytes, State.spriteX, State.spriteY, List.length_map,
    List.length_range', List.getElem_map, List.getElem_range', Nat.one_mul]
  constructor
  · rintro ⟨r, hr, hpy, col, hcol, hpx, hbit⟩
    exact ⟨r, col, hr, hcol, hpx, hpy, hbit⟩
  · rintro ⟨r, col, hr, hcol, hpx, hpy, hbit⟩
    exact ⟨r, hr, hpy, col, hcol, hpx, hbit⟩

/-! ### DXYN -/

section
variable {s : State} {x y : RegIdx} {n : Nat}

theorem exec_drw_of_inRange (h : n = 0 ∨ s.i.toNat + n ≤ 0x1000) :
    exec (.drw x y n) s = .next (effectOf s (.drw x y n)) :=
  exec_of_checkOf_none (State.checkBounds_eq_none.mpr h)

theorem dispGet_effectOf_drw (px : Fin 64) (py : Fin 32) :
    dispGet (effectOf s (.drw x y n)).disp px py = (dispGet s.disp px py ^^ s.covers x y n px py) :=
  drawRows_get ..

/-- A collision is a covered pixel that was on before (43_display.md R173). -/
theorem State.drawn_collision : (s.drawn x y n).2 = true ↔
    ∃ (px : Fin 64) (py : Fin 32), s.covers x y n px py = true ∧ dispGet s.disp px py = true := by
  simp only [State.drawn, drawRows_collision, Bool.false_eq_true, false_or, State.covers]

theorem reg_effectOf_drw_flag : (effectOf s (.drw x y n)).reg 15 = flagByte (s.drawn x y n).2 :=
  State.reg_setReg_self ..

theorem reg_effectOf_drw_of_ne {r : RegIdx} (h : r ≠ 15) : (effectOf s (.drw x y n)).reg r = s.reg r :=
  State.reg_setReg_of_ne (s := { s with disp := (s.drawn x y n).1 }) h

theorem reg_effectOf_drw_flag_of_hit
    (h : ∃ (px : Fin 64) (py : Fin 32), s.covers x y n px py = true ∧ dispGet s.disp px py = true) :
    (effectOf s (.drw x y n)).reg 15 = 1 := by
  rw [reg_effectOf_drw_flag, State.drawn_collision.mpr h]
  rfl

theorem reg_effectOf_drw_flag_of_miss
    (h : ∀ (px : Fin 64) (py : Fin 32), s.covers x y n px py = true → dispGet s.disp px py = false) :
    (effectOf s (.drw x y n)).reg 15 = 0 := by
  have hmiss : (s.drawn x y n).2 = false := by
    rw [← Bool.not_eq_true, State.drawn_collision]
    rintro ⟨px, py, hcov, hon⟩
    exact Bool.false_ne_true ((h px py hcov).symm.trans hon)
  rw [reg_effectOf_drw_flag, hmiss]
  rfl

end

/-- Settles O29: `bit` is `State.covers`, and the bounds check decides between the drawing and the error. -/
theorem drawFlipsTheSpritesPixels : Obligations.DrawFlipsTheSpritesPixels := by
  refine ⟨encodedAs_of_row (fun _ => rfl) (fun _ => rfl), fun s x y n bit hbit => ?_⟩
  obtain rfl : bit = s.covers x y n := by
    funext px py
    rw [Bool.eq_iff_iff, hbit, State.covers_iff]
  exact ⟨fun hin => ⟨_, exec_drw_of_inRange hin, dispGet_effectOf_drw,
      reg_effectOf_drw_flag_of_hit, reg_effectOf_drw_flag_of_miss, fun _ => reg_effectOf_drw_of_ne, rfl⟩,
    fun hn hout => raises_of_checkOf_some (State.checkBounds_eq_some.mpr ⟨hn, hout, rfl⟩)⟩

/-! ### Two draws in a row -/

theorem display_ext {d e : Display} (h : ∀ (px : Fin 64) (py : Fin 32), dispGet d px py = dispGet e px py) : d = e :=
  Vector.ext fun y hy => Vector.ext fun x hx => h ⟨x, hx⟩ ⟨y, hy⟩

/-- DXYN changes neither I nor memory, and of the registers the flag only, so a second DXYN covers the same pixels. -/
theorem covers_effectOf_drw {s : State} {x y : RegIdx} (hx : x ≠ 15) (hy : y ≠ 15) (n : Nat) :
    (effectOf s (.drw x y n)).covers x y n = s.covers x y n := by
  funext px py
  simp only [State.covers, State.spriteX, State.spriteY, reg_effectOf_drw_of_ne hx, reg_effectOf_drw_of_ne hy]
  rfl

/-- Settles O30: each pixel is flipped by both draws or by neither, and a pixel that the first one turns on is hit by the
second. -/
theorem drawingTwiceRestoresTheDisplay : Obligations.DrawingTwiceRestoresTheDisplay := by
  intro s t u x y n hx hy hin hst htu
  obtain rfl := next_inj ((exec_drw_of_inRange hin).symm.trans hst)
  obtain rfl := next_inj ((exec_drw_of_inRange (s := effectOf s (.drw x y n)) hin).symm.trans htu)
  have hcovers := covers_effectOf_drw (s := s) hx hy n
  refine ⟨display_ext fun px py => ?_, fun hblank hchanged => ⟨?_, ?_⟩⟩
  · rw [dispGet_effectOf_drw, dispGet_effectOf_drw, hcovers, Bool.xor_assoc, Bool.xor_self, Bool.xor_false]
  · exact reg_effectOf_drw_flag_of_miss fun px py _ => hblank px py
  · obtain ⟨px, py, hcov⟩ : ∃ px py, s.covers x y n px py = true := by
      by_contra hnone
      simp only [not_exists, Bool.not_eq_true] at hnone
      exact hchanged (display_ext fun px py => by rw [dispGet_effectOf_drw, hnone, Bool.xor_false])
    have hoff : dispGet s.disp px py = false := hblank px py
    exact reg_effectOf_drw_flag_of_hit ⟨px, py, hcovers ▸ hcov, by rw [dispGet_effectOf_drw, hoff, hcov]; rfl⟩

end Sys2Proof.Machine

/-! ### Keypad and timers (44_input_timers.md R180 to R187) -/

namespace Sys2Proof.Machine

/-! ### The key skips -/

/-- A key index of at most 15 passes the check of either key skip (44_input_timers.md R187). -/
theorem checkKeyIndex_eq_none {k : Byte} (h : k.toNat ≤ 15) : checkKeyIndex k = none :=
  if_neg (Nat.not_lt.mpr h)

theorem checkKeyIndex_eq_some {k : Byte} (h : 15 < k.toNat) : checkKeyIndex k = some (.keyIndexOutOfRange k) :=
  if_pos h

theorem exec_skp_of_le {s : State} {x : RegIdx} (h : (s.reg x).toNat ≤ 15) :
    exec (.skp x) s = .next { s with pc := if s.key (s.reg x).toNat then s.pc + 2 else s.pc } :=
  exec_of_checkOf_none (checkKeyIndex_eq_none h)

/-- EXA1 is EX9E with its branches exchanged (44_input_timers.md R181). -/
theorem exec_sknp_of_le {s : State} {x : RegIdx} (h : (s.reg x).toNat ≤ 15) :
    exec (.sknp x) s = .next { s with pc := if s.key (s.reg x).toNat then s.pc else s.pc + 2 } := by
  rw [exec_of_checkOf_none (i := .sknp x) (checkKeyIndex_eq_none h)]
  simp only [effectOf, Bool.not_eq_true', ← Bool.not_eq_true, ite_not]

/-- Settles O31: one check of the index for both skips, and one sampled level that decides them in opposite ways. -/
theorem keySkipsTestTheSample : Obligations.KeySkipsTestTheSample :=
  ⟨encodedAs_of_row (fun _ => rfl) (fun _ => rfl), encodedAs_of_row (fun _ => rfl) (fun _ => rfl), fun _ _ =>
    ⟨fun h => ⟨exec_skp_of_le h, exec_sknp_of_le h⟩, fun h =>
      ⟨raises_of_checkOf_some (checkKeyIndex_eq_some h), raises_of_checkOf_some (checkKeyIndex_eq_some h)⟩⟩⟩

/-! ### The key wait -/

theorem exec_ldVxK_of_firstKey_eq_some {s : State} {k : Nat} (h : s.firstKey = some k) (x : RegIdx) :
    exec (.ldVxK x) s = .next (s.setReg x (BitVec.ofNat 8 k)) := by
  rcases execLdVxK_cases x s with ⟨j, hj, he⟩ | ⟨hnone, -⟩
  · obtain rfl : j = k := Option.some.inj (hj.symm.trans h)
    exact he
  · cases hnone.symm.trans h

theorem exec_ldVxK_of_firstKey_eq_none {s : State} (h : s.firstKey = none) (x : RegIdx) :
    exec (.ldVxK x) s = .next { s with pc := s.pc - 2 } := by
  rcases execLdVxK_cases x s with ⟨k, hk, -⟩ | ⟨-, he⟩
  · cases hk.symm.trans h
  · exact he

/-- The scan finds the pressed key below which no key is pressed (44_input_timers.md R182). -/
theorem State.firstKey_of_lowest {s : State} {k : Fin 16} (hk : s.keys.getLsbD k = true)
    (hlow : ∀ j : Fin 16, j < k → s.keys.getLsbD j = false) : s.firstKey = some k.val :=
  State.firstKey_eq_some.mpr ⟨k.isLt, hk, fun j hj => hlow ⟨j, hj.trans k.isLt⟩ hj⟩

/-- Settles O32: the scan finds the lowest pressed key, whose number fits in a register, or no key. -/
theorem keyWaitPolls : Obligations.KeyWaitPolls := by
  refine ⟨encodedAs_of_row (fun _ => rfl) (fun _ => rfl), fun s x => ⟨fun k hk hlow => ?_, fun hnone => ?_⟩⟩
  · refine ⟨_, exec_ldVxK_of_firstKey_eq_some (State.firstKey_of_lowest hk hlow) x, ?_,
      fun _ => State.reg_setReg_of_ne, rfl⟩
    rw [State.reg_setReg_self, BitVec.toNat_ofNat, Nat.mod_eq_of_lt (by omega)]
  · exact exec_ldVxK_of_firstKey_eq_none (State.firstKey_eq_none.mpr fun k hk => hnone ⟨k, hk⟩) x

/-! ### The timers -/

/-- The sound is active from the write on, with no Tick (44_input_timers.md R185). -/
theorem State.soundActive_setSt {s : State} {v : Byte} : (s.setSt v).soundActive = true ↔ v ≠ 0 :=
  bne_iff_ne

/-- Settles O33: each instruction is one write, and `sound_active` is read from the ST that FX18 leaves. -/
theorem timerInstructions : Obligations.TimerInstructions :=
  ⟨encodedAs_of_row (fun _ => rfl) (fun _ => rfl), encodedAs_of_row (fun _ => rfl) (fun _ => rfl),
    encodedAs_of_row (fun _ => rfl) (fun _ => rfl), fun _ _ =>
      ⟨⟨_, rfl, State.reg_setReg_self .., fun _ => State.reg_setReg_of_ne, rfl⟩, rfl,
        ⟨_, rfl, rfl, State.soundActive_setSt, rfl⟩⟩⟩

end Sys2Proof.Machine

/-! ### Errors: precise, recorded for good, each with its cause (60_exceptions.md R200 to R211) -/

namespace Sys2Proof.Machine

/-- Settles O50: a step is a `Transition`, which appends no record or a sound one. -/
theorem recordsStaySound : Obligations.RecordsStaySound :=
  fun _ _ hs h => transition_recordsSound hs (transition_of_step h)

/-! ### What an error leaves, and the records of a transaction -/

/-- A Step that appends a record has raised an error, which sets at most pc, `stepped` and the records (R201). -/
theorem engineTransition_of_faults_ne {u t : State} (h : EngineTransition u t) (hf : t.faults ≠ u.faults) :
    (0x0FFE < u.pc.toNat ∧ t = { u with stepped := true, faults := t.faults }) ∨
    (u.pc.toNat ≤ 0x0FFE ∧ t = { u with stepped := true, pc := u.pc + 2, faults := t.faults }) := by
  cases h with
  | fetchError hpc => exact .inl ⟨hpc, rfl⟩
  | error e hpc => exact .inr ⟨hpc, rfl⟩
  | effect i => exact absurd (effectOf_faults _ i) hf

/-- Settles O34: the two kinds of error, told apart by whether the fetch failed. -/
theorem errorsArePrecise : Obligations.ErrorsArePrecise := by
  intro s u t hu h hf
  rw [step_of_stepIssued hu] at h
  rcases engineTransition_of_faults_ne (engineTransition_of_engineStep h) hf with ⟨hpc, ht⟩ | ⟨hpc, ht⟩
  · exact ⟨fun _ => ht, fun hle => absurd hpc (by omega)⟩
  · exact ⟨fun hgt => absurd hpc (by omega), fun _ => ht⟩

/-- Settles O35: a Step appends at most one record, and no other transaction appends any. -/
theorem recordsAreNeverRemoved : Obligations.RecordsAreNeverRemoved := by
  intro s t h
  cases transition_of_step h with
  | engine rest h => exact (engineTransition_faults h).imp_right fun ⟨r, _, hr⟩ => ⟨r, hr⟩
  | tick | load | seed | keys => exact .inl rfl

/-- Settles O37: a fetch error leaves pc, so the next fetch fails alike; any other error leaves `ipc + 2`. -/
theorem hostResumesAfterError : Obligations.HostResumesAfterError := by
  intro s u t v hu h hf hv
  have hpcv : v.pc = t.pc := by
    obtain ⟨rest, rfl⟩ := hv.exists_host
    rfl
  refine ⟨fun hpc => ?_, fun hpc => ?_⟩
  · rw [step_of_fetch_error hu hpc] at h
    obtain rfl := next_inj h
    obtain ⟨rest, rfl⟩ := hv.exists_host
    exact ⟨_, step_of_fetch_error hv hpc, rfl, _, rfl, rfl⟩
  · rw [hpcv, (errorsArePrecise s u t hu h hf).2 hpc]

/-! ### The cause of each error -/

section
variable {s : State} {n : Nat} {e : ErrorKind}

/-- A failed bounds check of a block names its lowest address that is out of range (R206). -/
theorem State.checkBounds_block_cause (h : s.checkBounds (n + 1) = some e) :
    e = .memoryOutOfBounds (max s.i.toNat 0x1000) ∧ 0x1000 ≤ s.i.toNat + n := by
  obtain ⟨-, hout, he⟩ := State.checkBounds_eq_some.mp h
  exact ⟨he, by omega⟩

/-- A failed font check of a block names its lowest address in the protected font (R208). -/
theorem State.checkFont_block_cause (h : s.checkFont (n + 1) = some e) :
    e = .immutableWrite (max s.i.toNat 0x050) ∧ s.config.fontWritable = false ∧
      0x050 ≤ s.i.toNat + n ∧ s.i.toNat < 0x0A0 := by
  have hhit := mt State.checkFont_eq_none.mpr (h ▸ Option.some_ne_none e)
  simp only [not_or, Bool.not_eq_true] at hhit
  obtain ⟨hw, -, hlow, hhigh⟩ := hhit
  have he := State.checkFont_block_eq_some hw (n := n) (by omega) (by omega)
  exact ⟨Option.some.inj (h.symm.trans he), hw, by omega, by omega⟩

/-- A store of a block fails on its bounds, or inside the memory on the protected font (R206, R208, R209). -/
theorem State.checkStore_block_cause (h : s.checkStore (n + 1) = some e) :
    (e = .memoryOutOfBounds (max s.i.toNat 0x1000) ∧ 0x1000 ≤ s.i.toNat + n) ∨
    (e = .immutableWrite (max s.i.toNat 0x050) ∧ s.config.fontWritable = false ∧
      0x050 ≤ s.i.toNat + n ∧ s.i.toNat < 0x0A0) := by
  unfold State.checkStore at h
  split at h
  · next hb => exact .inl (State.checkBounds_block_cause (hb.trans h))
  · exact .inr (State.checkFont_block_cause h)

end

theorem checkKeyIndex_cause {k : Byte} {e : ErrorKind} (h : checkKeyIndex k = some e) :
    e = .keyIndexOutOfRange k ∧ 15 < k.toNat := by
  obtain ⟨hk, he⟩ := Option.ite_none_right_eq_some.mp h
  exact ⟨(Option.some.inj he).symm, hk⟩

/-- The record of an error after the fetch holds the address and the word of the fetch (R200, R202). -/
theorem advance_raise_faults (u : State) (e : ErrorKind) : (u.markStepped.advance.raise e).faults =
    u.faults ++ [{ kind := e, ipc := u.pc, word := some (u.readWord u.pc.toNat) }] := by
  rw [State.raise_faults, State.currentWord, advance_ipc]
  rfl

/-- Settles O36: the fetch, the decode and the instruction's own check are the sources of an error, and each check names its
cause. -/
theorem eachErrorHasItsCause : Obligations.EachErrorHasItsCause := by
  refine ⟨⟨rfl, rfl, rfl, fun _ => ⟨rfl, rfl⟩, fun _ => ⟨rfl, rfl⟩, fun _ => ⟨rfl, rfl⟩⟩, fun s u hu => ?_⟩
  rw [step_of_stepIssued hu]
  rcases engineStep_cases u with ⟨hpc, he⟩ | ⟨hpc, _, hd, he⟩ | ⟨hpc, i, hd, he⟩
  · exact ⟨_, he, .inr ⟨_, rfl, rfl, .inl ⟨rfl, hpc, rfl⟩⟩⟩
  · exact ⟨_, he, .inr ⟨_, advance_raise_faults u _, rfl, .inr ⟨rfl, hpc, by simp only [hd]⟩⟩⟩
  · rw [he, exec_eq]
    cases hc : checkOf u.markStepped.advance i with
    | none => exact ⟨_, rfl, .inl (effectOf_faults _ i)⟩
    | some e =>
      refine ⟨_, rfl, .inr ⟨_, advance_raise_faults u e, rfl, .inr ⟨rfl, hpc, ?_⟩⟩⟩
      simp only [hd]
      cases i with
      | ret | call =>
        obtain ⟨hsp, hkind⟩ := Option.ite_none_right_eq_some.mp hc
        exact ⟨(Option.some.inj hkind).symm, Fin.ext hsp⟩
      | skp | sknp => exact checkKeyIndex_cause hc
      | drw x y n =>
        obtain ⟨hn, hout, hkind⟩ := State.checkBounds_eq_some.mp hc
        exact ⟨hkind, hn, hout⟩
      | ldVxMem => exact State.checkBounds_block_cause hc
      | ldB | ldMemVx => exact State.checkStore_block_cause hc
      | _ => cases hc

end Sys2Proof.Machine

/-! ### Ticks and the audio gate (60_exceptions.md R220 to R223) -/

namespace Sys2Proof.Machine

/-- Settles O49: a step is a `Transition`, which makes the call of its edge and no other. -/
theorem audioGateMatchesSound : Obligations.AudioGateMatchesSound :=
  fun _ _ hs h => transition_soundMatches hs (transition_of_step h)

theorem countDown_toNat (v : Byte) : (countDown v).toNat = v.toNat - 1 := by
  unfold countDown
  split
  · next h => rw [h]; rfl
  · bv_omega

/-- A Tick with both timers at 0 makes no change and no call (R220, R223). -/
theorem State.tick_of_timers_zero {s : State} (hdt : s.dt = 0) (hst : s.st = 0) : s.tick = s := by
  have hstay : ∀ {v : Byte}, v = 0 → countDown v = v := fun h => h ▸ rfl
  rw [State.tick, hstay hdt, hstay hst, State.setSt, State.setDt]
  simp only [audioEdge_self, List.append_nil]

/-- Settles O38: a Tick is two counts down and the call of its edge. -/
theorem tickSaturatesAtZero : Obligations.TickSaturatesAtZero := fun s rest hhost =>
  ⟨_, step_pending hhost, countDown_toNat s.dt, countDown_toNat s.st, rfl, fun hdt hst =>
    State.tick_of_timers_zero (s := { s with host := rest }) hdt hst⟩

/-! ### The edges of the sound and their causes -/

/-- FX18 and a Tick are the only causes of a change of ST (R222). -/
theorem step_st_writers {s t : State} (h : step s = .next t) (hne : t.st ≠ s.st) :
    (∃ u x, StepIssued s u ∧ decode s.config.subopDecode (s.readWord s.pc.toNat) = .ok (.ldStVx x) ∧ t.st = s.reg x) ∨
    (∃ rest, s.host = .tick :: rest ∧ t.st = countDown s.st) := by
  rcases step_cases h with ⟨u, hu, he⟩ | ⟨rest, hhost, rfl⟩ | ⟨_, _, -, -, -, rfl⟩ | ⟨_, _, -, -, rfl⟩ | ⟨_, _, -, rfl⟩
  · obtain ⟨rest, rfl⟩ := hu.exists_host
    cases engineTransition_of_engineStep he with
    | fetchError | error => exact absurd rfl hne
    | effect i _ hd =>
      obtain ⟨x, rfl⟩ := effectOf_st_writers hne
      exact .inl ⟨_, x, hu, hd, rfl⟩
  · exact .inr ⟨rest, hhost, rfl⟩
  all_goals exact absurd rfl hne

/-- With no edge of `sound_active` there is no call. -/
theorem audioEdge_of_same {old new : Byte} (h : (old != 0) = (new != 0)) : audioEdge old new = [] := by
  unfold audioEdge
  rw [h]
  cases new != 0 <;> rfl

theorem audioEdge_rising {old new : Byte} (hold : (old != 0) = false) (hnew : (new != 0) = true) :
    audioEdge old new = [.enable] := by
  rw [audioEdge, hold, hnew]

theorem audioEdge_falling {old new : Byte} (hold : (old != 0) = true) (hnew : (new != 0) = false) :
    audioEdge old new = [.disable] := by
  rw [audioEdge, hold, hnew]

/-- Settles O39: the calls are those of the edge, and ST changes by FX18 or by a count down, which leaves 0 from 0 or 1
alone. -/
theorem audioCallsFollowSoundEdges : Obligations.AudioCallsFollowSoundEdges := by
  refine ⟨fun s => bne_iff_ne.trans (not_congr BitVec.toNat_eq), fun s t h => ?_⟩
  have haudio := transition_audio (transition_of_step h)
  refine ⟨fun hsame => ?_, fun hs ht => ⟨?_, ?_⟩, fun hs ht => ⟨?_, ?_⟩⟩
  · rw [haudio, audioEdge_of_same hsame, List.append_nil]
  · rw [haudio, audioEdge_rising hs ht]
  · have hold : s.st = 0 := bne_eq_false_iff_eq.mp hs
    have hnew : t.st ≠ 0 := bne_iff_ne.mp ht
    rcases step_st_writers h (hold ▸ hnew) with ⟨u, x, hu, hd, hx⟩ | ⟨-, -, hx⟩
    · exact ⟨u, x, hu, hd, hx ▸ hnew⟩
    · exact absurd (hx.trans (congrArg countDown hold)) hnew
  · rw [haudio, audioEdge_falling hs ht]
  · have hold : s.st ≠ 0 := bne_iff_ne.mp hs
    have hnew : t.st = 0 := bne_eq_false_iff_eq.mp ht
    rcases step_st_writers h (hnew ▸ hold.symm) with ⟨u, x, hu, hd, hx⟩ | ⟨rest, hhost, hx⟩
    · exact .inl ⟨u, x, hu, hd, hx ▸ hnew⟩
    · have hcount := countDown_toNat s.st
      rw [← hx, hnew] at hcount
      exact .inr ⟨rest, hhost, by bv_omega⟩

end Sys2Proof.Machine

/-! ### Creation and Loads (70_reset_and_hazards.md R240 to R247) -/

namespace Sys2Proof.Machine

/-! ### Creation -/

theorem readByte_create_font (c : Config) (k : Fin 80) : (State.create c).readByte (0x050 + k.val) = c.font[k] := by
  have hfont : inFont (0x050 + k.val) = true := inFont_iff.mpr (by omega)
  have hread : (State.create c).readByte (0x050 + k.val) = c.font.getD (0x050 + k.val - 0x050) 0 := if_pos hfont
  simp [hread, Vector.getD]

theorem readByte_create_outside_font (c : Config) {a : Nat} (h : a < 0x050 ∨ 0x0A0 ≤ a) :
    (State.create c).readByte a = 0 :=
  if_neg (by rw [inFont_iff]; omega)

/-- Settles O42: the memory lists no byte, so each read is of the creation value. -/
theorem creationState : Obligations.CreationState := fun c =>
  ⟨fun r => by simp [State.reg, State.create], rfl, rfl, rfl, fun k => by simp [State.create], rfl, rfl, rfl, rfl, rfl,
    readByte_create_font c, fun _ => readByte_create_outside_font c⟩

/-- Settles O51: the five invariants of a fresh state. -/
theorem freshStateMeetsInvariants : Obligations.FreshStateMeetsInvariants := fun c keys host =>
  ⟨fresh_memCanonical c keys host, fresh_pcBounded c keys host, fresh_fontIntact c keys host,
    fresh_soundMatches c keys host, fresh_recordsSound c keys host⟩

/-! ### Loads, and a Step without one -/

section
variable {s : State} {image : List Byte} {rest : List Transaction} (hhost : s.host = .load image :: rest)
include hhost

theorem step_load_of_stepped (hs : s.stepped = true) : step s = .refused .loadAfterFirstStep :=
  (step_pending hhost).trans (if_pos hs)

theorem step_load_of_not_stepped (hs : s.stepped = false) : step s =
    if 3584 < image.length then .refused (.romTooLarge image.length)
    else .next (State.loaded { s with host := rest } image) :=
  (step_pending hhost).trans (if_neg (Bool.eq_false_iff.mp hs))

end

/-- Settles O40: a Load that is allowed is a store at 0x200 and a jump there. -/
theorem loadCopiesTheImage : Obligations.LoadCopiesTheImage := by
  intro s image rest hhost
  refine ⟨fun hs hlen => ?_, fun hs hlen => ?_, step_load_of_stepped hhost⟩ <;> rw [step_load_of_not_stepped hhost hs]
  · rw [if_neg (Nat.not_lt.mpr hlen)]
    exact ⟨_, rfl, rfl, fun _ => State.readByte_storeBytes_offset s 0x200,
      fun _ => State.readByte_storeBytes_outside s (a := 0x200), rfl⟩
  · rw [if_pos hlen]

/-- Address 0 lies outside the font region (10_state.md R20). -/
theorem readWord_create_zero (c : Config) : (State.create c).readWord 0 = 0 := by
  rw [State.readWord, readByte_create_outside_font c (by decide), readByte_create_outside_font c (by decide)]
  rfl

/-- The word 0x0000 is in group 0 and is neither 00E0 nor 00EE (30_encoding.md R89). -/
theorem decode_zero (mode : SubopDecode) : decode mode 0 = .error (.unknownOpcode 0) := by
  cases mode <;> rfl

/-- Settles O43: pc and the word there are 0 at creation, and no setting reads the word 0. -/
theorem stepBeforeLoadIsUnknownOpcode : Obligations.StepBeforeLoadIsUnknownOpcode := by
  refine ⟨fun c => ?_, fun _ _ _ => step_load_of_stepped⟩
  have hword : (State.create c).readWord (State.create c).pc.toNat = 0 := readWord_create_zero c
  rw [step_of_decode_error (.inl ⟨rfl, rfl⟩) (Nat.zero_le _) ((congrArg _ hword).trans (decode_zero _)), hword]
  rfl

end Sys2Proof.Machine

/-! ### The idle end of a run (70_reset_and_hazards.md R250) -/

namespace Sys2Proof.Machine

/-- The word at an idle end is a jump to itself (40_flow.md R102). -/
theorem State.idle.fetches_self_jump {s : State} (h : s.idle) (mode : SubopDecode) :
    ∃ nnn, decode mode (s.readWord s.pc.toNat) = .ok (.jp nnn) ∧ addrWord nnn = s.pc := by
  obtain ⟨-, hpc, hword⟩ := h
  have hgroup : (fieldG (s.readWord s.pc.toNat)).toNat = 1 := by
    rw [fieldG_toNat]
    omega
  refine ⟨fieldNNN (s.readWord s.pc.toNat), ?_, BitVec.eq_of_toNat_eq ?_⟩
  · exact (congrArg _ (word_eq_A hgroup)).trans (decode_encode mode (i := .jp _) rfl)
  · rw [addrWord_toNat, fieldNNN_toNat]
    omega

/-- Settles O44: the jump sets pc to the address it was fetched from. -/
theorem idleEndStaysIdle : Obligations.IdleEndStaysIdle := by
  intro s u hidle hu
  obtain ⟨rest, rfl⟩ := hu.exists_host
  obtain ⟨nnn, hjump, htarget⟩ := hidle.fetches_self_jump s.config.subopDecode
  obtain ⟨-, hpc, -⟩ := hidle
  rw [step_of_decode_ok hu hpc hjump, ← htarget]
  rfl

/-- Settles O45: a Step sets only `stepped`, a Tick counts down, a key change sets only the keys; a Load and a Seed are
refused after the first Step. -/
theorem idleEndSurvivesTicksAndKeys : Obligations.IdleEndSurvivesTicksAndKeys := by
  intro s t hidle hs h
  rcases step_cases h with ⟨u, hu, -⟩ | ⟨rest, -, rfl⟩ | ⟨_, _, -, hfresh, -⟩ | ⟨_, _, -, hfresh, -⟩ | ⟨k, rest, -, rfl⟩
  · obtain rfl := next_inj ((idleEndStaysIdle s u hidle hu).symm.trans h)
    obtain ⟨rest, rfl⟩ := hu.exists_host
    exact ⟨hidle, rfl, rfl, rfl, rfl, rfl, rfl, rfl, le_rfl, le_rfl⟩
  · have hdown : ∀ v, (countDown v).toNat ≤ v.toNat := fun v => (countDown_toNat v).trans_le (Nat.sub_le _ 1)
    exact ⟨hidle, rfl, rfl, rfl, rfl, rfl, rfl, rfl, hdown _, hdown _⟩
  · exact absurd hs (Bool.eq_false_iff.mp hfresh)
  · exact absurd hs (Bool.eq_false_iff.mp hfresh)
  · exact ⟨hidle, rfl, rfl, rfl, rfl, rfl, rfl, rfl, le_rfl, le_rfl⟩

end Sys2Proof.Machine
